-- ==== Sys2Proof/Word.lean ====
section
/-! DEFINITION. The value widths of the spec (00_scope.md R8, R9): `u4`, `u8`, `u12`, `u16`, and the register number. -/

namespace Sys2Proof

/-- `u4`: one nibble of an instruction word. -/
abbrev Nibble := BitVec 4

/-- `u8`: the contents of a general register, a timer or a memory cell. -/
abbrev Byte := BitVec 8

/-- `u12`: the `nnn` field, an address inside an instruction word. -/
abbrev Addr12 := BitVec 12

/-- `u16`: an instruction word, `I`, `pc` or a stack entry. -/
abbrev Word := BitVec 16

/-- The number of a general register, 0 to 15 (10_state.md R21). -/
abbrev Reg := Fin 16

/-- `VF`, the register that doubles as the flag (10_state.md R22). -/
abbrev VF : Reg := 15

end Sys2Proof
end

