-- ==== Sys2Proof/Syntax.lean ====
section
/-! DEFINITION. The instructions: one constructor for each of the 34 rows of 30_encoding.md R80. -/

namespace Sys2Proof

/-- An instruction with its operands (30_encoding.md R71, R73). Every operand value is legal (R73), so the operand
types admit exactly the values of the fields. `x` and `y` are register numbers, `kk` is an immediate byte, `nnn` an
address and `n` a row count. The order is that of the opcode table. -/
inductive Instr where
  /-- `00E0` CLS (R190). -/
  | cls
  /-- `00EE` RET (R120). -/
  | ret
  /-- `1nnn` JP nnn (R121). -/
  | jp (nnn : Addr12)
  /-- `2nnn` CALL nnn (R122). -/
  | call (nnn : Addr12)
  /-- `3xkk` SE Vx, kk (R124). -/
  | seImm (x : Reg) (kk : Byte)
  /-- `4xkk` SNE Vx, kk (R125). -/
  | sneImm (x : Reg) (kk : Byte)
  /-- `5xy0` SE Vx, Vy (R126). -/
  | seReg (x y : Reg)
  /-- `6xkk` LD Vx, kk (R141). -/
  | ldImm (x : Reg) (kk : Byte)
  /-- `7xkk` ADD Vx, kk (R142). -/
  | addImm (x : Reg) (kk : Byte)
  /-- `8xy0` LD Vx, Vy (R143). -/
  | ldReg (x y : Reg)
  /-- `8xy1` OR Vx, Vy (R144). -/
  | orReg (x y : Reg)
  /-- `8xy2` AND Vx, Vy (R145). -/
  | andReg (x y : Reg)
  /-- `8xy3` XOR Vx, Vy (R146). -/
  | xorReg (x y : Reg)
  /-- `8xy4` ADD Vx, Vy (R147). -/
  | addReg (x y : Reg)
  /-- `8xy5` SUB Vx, Vy (R148). -/
  | subReg (x y : Reg)
  /-- `8xy6` SHR Vx (R149). `y` is kept: it is read when `SHIFT_READS_VY = true` and ignored otherwise (R74). -/
  | shr (x y : Reg)
  /-- `8xy7` SUBN Vx, Vy (R150). -/
  | subnReg (x y : Reg)
  /-- `8xyE` SHL Vx (R151). `y` as in `shr`. -/
  | shl (x y : Reg)
  /-- `9xy0` SNE Vx, Vy (R127). -/
  | sneReg (x y : Reg)
  /-- `Annn` LD I, nnn (R170). -/
  | ldI (nnn : Addr12)
  /-- `Bnnn` JP V0, nnn (R123). -/
  | jpV0 (nnn : Addr12)
  /-- `Cxkk` RND Vx, kk (R152). -/
  | rnd (x : Reg) (kk : Byte)
  /-- `Dxyn` DRW Vx, Vy, n (R191). -/
  | drw (x y : Reg) (n : Nibble)
  /-- `Ex9E` SKP Vx (R210). -/
  | skp (x : Reg)
  /-- `ExA1` SKNP Vx (R211). -/
  | sknp (x : Reg)
  /-- `Fx07` LD Vx, DT (R212). -/
  | ldVxDT (x : Reg)
  /-- `Fx0A` LD Vx, K (R215). -/
  | ldVxK (x : Reg)
  /-- `Fx15` LD DT, Vx (R213). -/
  | ldDTVx (x : Reg)
  /-- `Fx18` LD ST, Vx (R214). -/
  | ldSTVx (x : Reg)
  /-- `Fx1E` ADD I, Vx (R171). -/
  | addI (x : Reg)
  /-- `Fx29` LD F, Vx (R172). -/
  | ldF (x : Reg)
  /-- `Fx33` LD B, Vx (R173). -/
  | ldB (x : Reg)
  /-- `Fx55` LD [I], Vx (R174). -/
  | store (x : Reg)
  /-- `Fx65` LD Vx, [I] (R175). -/
  | load (x : Reg)
  deriving DecidableEq, Repr

end Sys2Proof
end

