-- ==== Sys2Proof/WellFormed.lean ====
section
/-! DEFINITION. Well-formed operands. The spec makes no operand value illegal (30_encoding.md R73), so the only checks are
those of the field widths (R71), and they stand where plain numbers become operands: out of range, there is no operand. -/

namespace Sys2Proof

/-- A register number is one nibble, 0 to 15 (30_encoding.md R71, R73). -/
def regOperand (n : Nat) : Option Reg := if h : n < 16 then some ⟨n, h⟩ else none

/-- An immediate is one byte, 0 to 255, never sign-extended (30_encoding.md R71, R73). -/
def byteOperand (n : Nat) : Option Byte := if n < 2 ^ 8 then some (BitVec.ofNat 8 n) else none

/-- An address field is 12 bits (30_encoding.md R71, R73). -/
def addrOperand (n : Nat) : Option Addr12 := if n < 2 ^ 12 then some (BitVec.ofNat 12 n) else none

/-- A row count is one nibble, 0 to 15 (30_encoding.md R71, R73). -/
def rowsOperand (n : Nat) : Option Nibble := if n < 2 ^ 4 then some (BitVec.ofNat 4 n) else none

/-- Every instruction term is well formed: its operand types admit exactly the values of its fields, and all of those
are legal (30_encoding.md R73; log 28). Written constructor by constructor, so that a row added with a constraint of
its own cannot slip past. -/
def Instr.wellFormed : Instr → Bool
  | .cls => true
  | .ret => true
  | .jp _ => true
  | .call _ => true
  | .seImm _ _ => true
  | .sneImm _ _ => true
  | .seReg _ _ => true
  | .ldImm _ _ => true
  | .addImm _ _ => true
  | .ldReg _ _ => true
  | .orReg _ _ => true
  | .andReg _ _ => true
  | .xorReg _ _ => true
  | .addReg _ _ => true
  | .subReg _ _ => true
  | .shr _ _ => true
  | .subnReg _ _ => true
  | .shl _ _ => true
  | .sneReg _ _ => true
  | .ldI _ => true
  | .jpV0 _ => true
  | .rnd _ _ => true
  | .drw _ _ _ => true
  | .skp _ => true
  | .sknp _ => true
  | .ldVxDT _ => true
  | .ldVxK _ => true
  | .ldDTVx _ => true
  | .ldSTVx _ => true
  | .addI _ => true
  | .ldF _ => true
  | .ldB _ => true
  | .store _ => true
  | .load _ => true

end Sys2Proof
end

