-- ==== Sys2Proof/Decode.lean ====
section
/-! DEFINITION. Decoding and encoding of the 16-bit instruction word (30_encoding.md). -/

namespace Sys2Proof

/-! ## The fields of a word (30_encoding.md R71) -/

/-- `op`, bits 15 to 12. -/
def Word.op (w : Word) : Nibble := w.extractLsb' 12 4

/-- The nibble of bits 11 to 8. -/
def Word.xNibble (w : Word) : Nibble := w.extractLsb' 8 4

/-- The nibble of bits 7 to 4. -/
def Word.yNibble (w : Word) : Nibble := w.extractLsb' 4 4

/-- `n`, bits 3 to 0. -/
def Word.n (w : Word) : Nibble := w.extractLsb' 0 4

/-- `x`, the register number in bits 11 to 8. -/
def Word.x (w : Word) : Reg := w.xNibble.toFin

/-- `y`, the register number in bits 7 to 4. -/
def Word.y (w : Word) : Reg := w.yNibble.toFin

/-- `kk`, bits 7 to 0. -/
def Word.kk (w : Word) : Byte := w.extractLsb' 0 8

/-- `nnn`, bits 11 to 0. -/
def Word.nnn (w : Word) : Addr12 := w.extractLsb' 0 12

/-- `memory[pc] ++ memory[pc + 1]`: the first byte is the high byte (20_memory.md R56). -/
def Word.ofBytes (hi lo : Byte) : Word := hi ++ lo

/-- The high byte of a word, the one at the lower address (20_memory.md R56). -/
def Word.hiByte (w : Word) : Byte := w.extractLsb' 8 8

/-- The low byte of a word, the one at the higher address (20_memory.md R56). -/
def Word.loByte (w : Word) : Byte := w.extractLsb' 0 8

/-! ## Decoding -/

/-- What a word decodes to: one of the 34 instructions, or UNKNOWN by name (30_encoding.md R86). -/
inductive Decoded where
  | instr (i : Instr)
  /-- No row of R80 matches: the word executes as Next (R84). -/
  | unknown (w : Word)
  deriving DecidableEq, Repr

/-- Family 0, matched on all 16 bits (30_encoding.md R82). -/
def decodeFamily0 (w : Word) : Decoded :=
  if w = 0x00E0#16 then .instr .cls
  else if w = 0x00EE#16 then .instr .ret
  else .unknown w

/-- Family 8, told apart by `n` (30_encoding.md R81). -/
def decodeFamily8 (w : Word) : Decoded :=
  if w.n = 0x0#4 then .instr (.ldReg w.x w.y)
  else if w.n = 0x1#4 then .instr (.orReg w.x w.y)
  else if w.n = 0x2#4 then .instr (.andReg w.x w.y)
  else if w.n = 0x3#4 then .instr (.xorReg w.x w.y)
  else if w.n = 0x4#4 then .instr (.addReg w.x w.y)
  else if w.n = 0x5#4 then .instr (.subReg w.x w.y)
  else if w.n = 0x6#4 then .instr (.shr w.x w.y)
  else if w.n = 0x7#4 then .instr (.subnReg w.x w.y)
  else if w.n = 0xE#4 then .instr (.shl w.x w.y)
  else .unknown w

/-- Family E, told apart by `kk` (30_encoding.md R81). -/
def decodeFamilyE (w : Word) : Decoded :=
  if w.kk = 0x9E#8 then .instr (.skp w.x)
  else if w.kk = 0xA1#8 then .instr (.sknp w.x)
  else .unknown w

/-- Family F, told apart by `kk` (30_encoding.md R81). -/
def decodeFamilyF (w : Word) : Decoded :=
  if w.kk = 0x07#8 then .instr (.ldVxDT w.x)
  else if w.kk = 0x0A#8 then .instr (.ldVxK w.x)
  else if w.kk = 0x15#8 then .instr (.ldDTVx w.x)
  else if w.kk = 0x18#8 then .instr (.ldSTVx w.x)
  else if w.kk = 0x1E#8 then .instr (.addI w.x)
  else if w.kk = 0x29#8 then .instr (.ldF w.x)
  else if w.kk = 0x33#8 then .instr (.ldB w.x)
  else if w.kk = 0x55#8 then .instr (.store w.x)
  else if w.kk = 0x65#8 then .instr (.load w.x)
  else .unknown w

/-- Decode (40_cycle.md R105) by the dispatch of 30_encoding.md R81: the top nibble selects a family. Families 5 and 9
need `n = 0` (R83). Total; it reads nothing but the word (R86). -/
def decode (w : Word) : Decoded :=
  if w.op = 0x0#4 then decodeFamily0 w
  else if w.op = 0x1#4 then .instr (.jp w.nnn)
  else if w.op = 0x2#4 then .instr (.call w.nnn)
  else if w.op = 0x3#4 then .instr (.seImm w.x w.kk)
  else if w.op = 0x4#4 then .instr (.sneImm w.x w.kk)
  else if w.op = 0x5#4 then if w.n = 0x0#4 then .instr (.seReg w.x w.y) else .unknown w
  else if w.op = 0x6#4 then .instr (.ldImm w.x w.kk)
  else if w.op = 0x7#4 then .instr (.addImm w.x w.kk)
  else if w.op = 0x8#4 then decodeFamily8 w
  else if w.op = 0x9#4 then if w.n = 0x0#4 then .instr (.sneReg w.x w.y) else .unknown w
  else if w.op = 0xA#4 then .instr (.ldI w.nnn)
  else if w.op = 0xB#4 then .instr (.jpV0 w.nnn)
  else if w.op = 0xC#4 then .instr (.rnd w.x w.kk)
  else if w.op = 0xD#4 then .instr (.drw w.x w.y w.n)
  else if w.op = 0xE#4 then decodeFamilyE w
  else decodeFamilyF w

/-- Decoding of the two bytes of an instruction, in the order memory holds them (20_memory.md R56). -/
def decodeBytes (hi lo : Byte) : Decoded := decode (Word.ofBytes hi lo)

/-- The host's question: the instruction this decoder reads from the word numbered as spec/opcode_table.json numbers it.
Every instruction is one 16-bit word (30_encoding.md R70), stored high byte first. -/
def decodeTableWord (nbits w : Nat) : Option Instr :=
  let word : Word := BitVec.ofNat 16 (w % 2 ^ nbits)
  match decodeBytes word.hiByte word.loByte with
  | .instr i => some i
  | .unknown _ => none

/-! ## Encoding (30_encoding.md R72, R80) -/

/-- The nibble that spells a register number. -/
def Reg.nibble (x : Reg) : Nibble := BitVec.ofFin x

/-- Format NNN: `op nnn`. -/
def encNNN (op : Nibble) (nnn : Addr12) : Word := op ++ nnn

/-- Format XKK: `op x kk`. -/
def encXKK (op : Nibble) (x : Reg) (kk : Byte) : Word := op ++ (Reg.nibble x ++ kk)

/-- Formats XY and XYN: `op x y sub` and `op x y n`. -/
def encXYN (op : Nibble) (x y : Reg) (n : Nibble) : Word := op ++ (Reg.nibble x ++ (Reg.nibble y ++ n))

/-- The word of an instruction, from the opcode map of 30_encoding.md R80. -/
def encode : Instr → Word
  | .cls => 0x00E0#16
  | .ret => 0x00EE#16
  | .jp nnn => encNNN 0x1#4 nnn
  | .call nnn => encNNN 0x2#4 nnn
  | .seImm x kk => encXKK 0x3#4 x kk
  | .sneImm x kk => encXKK 0x4#4 x kk
  | .seReg x y => encXYN 0x5#4 x y 0x0#4
  | .ldImm x kk => encXKK 0x6#4 x kk
  | .addImm x kk => encXKK 0x7#4 x kk
  | .ldReg x y => encXYN 0x8#4 x y 0x0#4
  | .orReg x y => encXYN 0x8#4 x y 0x1#4
  | .andReg x y => encXYN 0x8#4 x y 0x2#4
  | .xorReg x y => encXYN 0x8#4 x y 0x3#4
  | .addReg x y => encXYN 0x8#4 x y 0x4#4
  | .subReg x y => encXYN 0x8#4 x y 0x5#4
  | .shr x y => encXYN 0x8#4 x y 0x6#4
  | .subnReg x y => encXYN 0x8#4 x y 0x7#4
  | .shl x y => encXYN 0x8#4 x y 0xE#4
  | .sneReg x y => encXYN 0x9#4 x y 0x0#4
  | .ldI nnn => encNNN 0xA#4 nnn
  | .jpV0 nnn => encNNN 0xB#4 nnn
  | .rnd x kk => encXKK 0xC#4 x kk
  | .drw x y n => encXYN 0xD#4 x y n
  | .skp x => encXKK 0xE#4 x 0x9E#8
  | .sknp x => encXKK 0xE#4 x 0xA1#8
  | .ldVxDT x => encXKK 0xF#4 x 0x07#8
  | .ldVxK x => encXKK 0xF#4 x 0x0A#8
  | .ldDTVx x => encXKK 0xF#4 x 0x15#8
  | .ldSTVx x => encXKK 0xF#4 x 0x18#8
  | .addI x => encXKK 0xF#4 x 0x1E#8
  | .ldF x => encXKK 0xF#4 x 0x29#8
  | .ldB x => encXKK 0xF#4 x 0x33#8
  | .store x => encXKK 0xF#4 x 0x55#8
  | .load x => encXKK 0xF#4 x 0x65#8

/-- The two bytes of an instruction, in the order memory holds them (20_memory.md R56). -/
def encodeBytes (i : Instr) : List Byte := [(encode i).hiByte, (encode i).loByte]

/-! ## The opcode map as a table (30_encoding.md R80)

The decoder does not read this table; statements hold the two against each other. -/

/-- A row of R80: `w` is the row's instruction when `w &&& mask = value`. -/
structure OpcodeRow where
  mask : Word
  value : Word
  deriving DecidableEq, Repr

/-- A word is the row's instruction (30_encoding.md R80). -/
def OpcodeRow.fits (r : OpcodeRow) (w : Word) : Bool := w &&& r.mask == r.value

/-- The mask and match columns of R80, instruction by instruction. -/
def Instr.row : Instr → OpcodeRow
  | .cls => ⟨0xFFFF#16, 0x00E0#16⟩
  | .ret => ⟨0xFFFF#16, 0x00EE#16⟩
  | .jp _ => ⟨0xF000#16, 0x1000#16⟩
  | .call _ => ⟨0xF000#16, 0x2000#16⟩
  | .seImm _ _ => ⟨0xF000#16, 0x3000#16⟩
  | .sneImm _ _ => ⟨0xF000#16, 0x4000#16⟩
  | .seReg _ _ => ⟨0xF00F#16, 0x5000#16⟩
  | .ldImm _ _ => ⟨0xF000#16, 0x6000#16⟩
  | .addImm _ _ => ⟨0xF000#16, 0x7000#16⟩
  | .ldReg _ _ => ⟨0xF00F#16, 0x8000#16⟩
  | .orReg _ _ => ⟨0xF00F#16, 0x8001#16⟩
  | .andReg _ _ => ⟨0xF00F#16, 0x8002#16⟩
  | .xorReg _ _ => ⟨0xF00F#16, 0x8003#16⟩
  | .addReg _ _ => ⟨0xF00F#16, 0x8004#16⟩
  | .subReg _ _ => ⟨0xF00F#16, 0x8005#16⟩
  | .shr _ _ => ⟨0xF00F#16, 0x8006#16⟩
  | .subnReg _ _ => ⟨0xF00F#16, 0x8007#16⟩
  | .shl _ _ => ⟨0xF00F#16, 0x800E#16⟩
  | .sneReg _ _ => ⟨0xF00F#16, 0x9000#16⟩
  | .ldI _ => ⟨0xF000#16, 0xA000#16⟩
  | .jpV0 _ => ⟨0xF000#16, 0xB000#16⟩
  | .rnd _ _ => ⟨0xF000#16, 0xC000#16⟩
  | .drw _ _ _ => ⟨0xF000#16, 0xD000#16⟩
  | .skp _ => ⟨0xF0FF#16, 0xE09E#16⟩
  | .sknp _ => ⟨0xF0FF#16, 0xE0A1#16⟩
  | .ldVxDT _ => ⟨0xF0FF#16, 0xF007#16⟩
  | .ldVxK _ => ⟨0xF0FF#16, 0xF00A#16⟩
  | .ldDTVx _ => ⟨0xF0FF#16, 0xF015#16⟩
  | .ldSTVx _ => ⟨0xF0FF#16, 0xF018#16⟩
  | .addI _ => ⟨0xF0FF#16, 0xF01E#16⟩
  | .ldF _ => ⟨0xF0FF#16, 0xF029#16⟩
  | .ldB _ => ⟨0xF0FF#16, 0xF033#16⟩
  | .store _ => ⟨0xF0FF#16, 0xF055#16⟩
  | .load _ => ⟨0xF0FF#16, 0xF065#16⟩

/-- The 34 rows of R80 in the table's order. -/
def opcodeRows : List OpcodeRow :=
  [Instr.cls.row, Instr.ret.row, (Instr.jp 0).row, (Instr.call 0).row, (Instr.seImm 0 0).row, (Instr.sneImm 0 0).row,
   (Instr.seReg 0 0).row, (Instr.ldImm 0 0).row, (Instr.addImm 0 0).row]
  ++ [(Instr.ldReg 0 0).row, (Instr.orReg 0 0).row, (Instr.andReg 0 0).row, (Instr.xorReg 0 0).row,
   (Instr.addReg 0 0).row, (Instr.subReg 0 0).row, (Instr.shr 0 0).row, (Instr.subnReg 0 0).row, (Instr.shl 0 0).row]
  ++ [(Instr.sneReg 0 0).row, (Instr.ldI 0).row, (Instr.jpV0 0).row, (Instr.rnd 0 0).row, (Instr.drw 0 0 0).row,
   (Instr.skp 0).row, (Instr.sknp 0).row]
  ++ [(Instr.ldVxDT 0).row, (Instr.ldVxK 0).row, (Instr.ldDTVx 0).row, (Instr.ldSTVx 0).row, (Instr.addI 0).row,
   (Instr.ldF 0).row, (Instr.ldB 0).row, (Instr.store 0).row, (Instr.load 0).row]

end Sys2Proof
end

