-- ==== Sys2Proof/Config.lean ====
section
/-! DEFINITION. What an implementation fixes (00_scope.md R7) and the free values the spec leaves unconstrained. -/

namespace Sys2Proof

/-- `MEM_SIZE`: addresses 0x000 to 0xFFF exist (00_scope.md R7, 20_memory.md R50). -/
abbrev memSize : Nat := 0x1000

/-- `PROG_BASE`, where programs are loaded and where `pc` starts (00_scope.md R7). -/
abbrev progBase : Nat := 0x200

/-- `FONT_BASE`, the address of glyph 0 (00_scope.md R7). -/
abbrev fontBase : Nat := 0x000

/-- The two values of `OOB_READ_POLICY` and of `KEY_INDEX_POLICY` (00_scope.md R7): raise the fatal fault, or go on
with an unconstrained value. -/
inductive OutOfRange where
  | fault
  | any
  deriving DecidableEq, Repr

/-- The parameters of 00_scope.md R7 that select a behaviour.
A model may take them as arguments; this one carries them in `State.cfg` (log 1). -/
structure Config where
  /-- `TICK_WHILE_WAITING`: the timers tick in AwaitingInput cycles (D2). -/
  tickWhileWaiting : Bool
  /-- `RESOLVE_THEN_EXECUTE`: the cycle that resolves a key wait also runs an instruction (D3). -/
  resolveThenExecute : Bool
  /-- `OOB_READ_POLICY`: what a read above 0xFFF does (D6). -/
  oobRead : OutOfRange
  /-- `LOGIC_CLEARS_VF`: OR, AND and XOR write 0 to `VF` (D11). -/
  logicClearsVF : Bool
  /-- `SHIFT_READS_VY`: the shifts read `V[y]` (D13). -/
  shiftReadsVy : Bool
  /-- `LOADSTORE_ADVANCES_I`: `Fx55` and `Fx65` add `x + 1` to `I` (D14). -/
  loadStoreAdvancesI : Bool
  /-- `KEY_INDEX_POLICY`: what a key number above 15 does (D19). -/
  keyIndex : OutOfRange
  deriving DecidableEq, Repr

/-- FREE VALUE. The random byte of the cycle with this draw number, when the host injects none
(60_exceptions.md R254; log 2). -/
opaque Config.freeRnd : Nat → Byte

/-- FREE VALUE. The byte a data read above 0xFFF yields under `OOB_READ_POLICY = any`: first the draw number of the
cycle, then the address (20_memory.md R54; log 3). -/
opaque Config.freeDataByte : Nat → Nat → Byte

/-- FREE VALUE. The byte an instruction fetch above 0xFFF yields under `OOB_READ_POLICY = any`: first the draw number of
the cycle, then the address (40_cycle.md R102; log 3). -/
opaque Config.freeFetchByte : Nat → Nat → Byte

/-- FREE VALUE. The answer of a key test with a key number above 15 under `KEY_INDEX_POLICY = any`: first the draw
number of the cycle, then the key number (45_timers_input.md R216; log 3). -/
opaque Config.freeKey : Nat → Byte → Bool

end Sys2Proof
end

