-- ==== Sys2Proof/Machine/Params.lean ====
section
/-! DEFINITION. The spec's default for each parameter (00_scope.md R7; log 1). -/

namespace Sys2Proof

/-- The defaults of 00_scope.md R7, each the spec's own decision (D2, D3, D6, D11, D13, D14, D19; log 1). -/
def Config.default : Config where
  tickWhileWaiting := true
  resolveThenExecute := false
  oobRead := .fault
  logicClearsVF := false
  shiftReadsVy := false
  loadStoreAdvancesI := false
  keyIndex := .fault

end Sys2Proof
end

