-- ==== Sys2Proof/Machine/State.lean ====
section
/-! DEFINITION. The Machine State (10_state.md R20), the reasons a step may stop, and the state after construction. -/

namespace Sys2Proof.Machine

/-- Memory: the cells whose byte differs from what an unlisted address reads as, addresses strictly rising
(`Memory.wf` in Ops.lean; the unlisted contents are `Memory.unlisted`). -/
abbrev Memory := List Host.Cell

/-- The fatal faults of 60_exceptions.md R235. Their numbers are `FaultCode.num` (Ops.lean). -/
inductive FaultCode where
  /-- Code 1: `2nnn` with `sp = 16` (R236). -/
  | stackOverflow
  /-- Code 2: `00EE` with `sp = 0` (R237). -/
  | stackUnderflow
  /-- Code 3: a fetch with `pc + 1 > 0xFFF` (R238). -/
  | fetchOutOfRange
  /-- Code 4: a read of `Dxyn` or `Fx65` above 0xFFF (R239). -/
  | dataReadOutOfRange
  /-- Code 5: `Ex9E` or `ExA1` with `V[x] > 15` (R240). -/
  | keyIndexOutOfRange
  deriving DecidableEq, Repr

/-- The fault record `{code, pc, word}` (10_state.md R33). -/
structure FaultRecord where
  code : FaultCode
  /-- The `pc` of the faulting cycle. -/
  pc : Word
  /-- The fetched word, or 0 for a fetch fault. -/
  word : Word
  deriving DecidableEq, Repr

/-- One row of the framebuffer: 64 pixels (10_state.md R30). -/
abbrev PixelRow := Vector Bool 64

/-- `FB`: 32 rows of 64 one-bit pixels (10_state.md R30). -/
abbrev Framebuffer := Vector PixelRow 32

/-- The Machine State of 10_state.md R20, then three fields of the model's own. -/
structure State where
  /-- `memory` (20_memory.md R50). -/
  mem : Memory
  /-- `V[0..15]` (R21). -/
  v : Vector Byte 16
  /-- `I` (R23). -/
  i : Word
  /-- `pc` (R24). -/
  pc : Word
  /-- `stack[0..15]` (R25). -/
  stack : Vector Word 16
  /-- `sp`, the next free slot, 0 to 16 (R26). -/
  sp : Fin 17
  /-- `DT`, the delay timer (R28). -/
  dt : Byte
  /-- `ST`, the sound timer (R28). -/
  st : Byte
  /-- `FB` (R30). -/
  fb : Framebuffer
  /-- `frame_dirty` (R29). -/
  frameDirty : Bool
  /-- `key[0..15]`, the host's keypad snapshot (R32). -/
  key : Vector Bool 16
  /-- `input_wait`: the register that waits for a key (R27). -/
  inputWait : Option Reg
  /-- `fault` (R33). -/
  fault : Option FaultRecord
  /-- The model's own: the input port `rnd` (60_exceptions.md R250, R254). `some b` when the host injects the byte `b`,
  `none` when the byte of a cycle is a free draw (log 2). -/
  rnd : Option Byte
  /-- The model's own: the index of this cycle's free draws (log 3). -/
  draws : Nat
  /-- The model's own carrier of the parameters of 00_scope.md R7, which nothing writes (log 1). -/
  cfg : Config
  deriving DecidableEq, Repr

/-- The reasons for which a step would stop with a fault: NONE. Every cycle of the CORE has a next state; its fatal
faults are recorded in the state, and a Faulted CORE goes on unchanged (60_exceptions.md R232, R234; log 4). -/
inductive Fault where
  deriving DecidableEq, Repr

/-- The reasons for which a step would be refused. -/
inductive Refusal where
  /-- Raised by `exec` alone, for an instruction that has no meaning yet; safe. No arm raises it. -/
  | notModelled (mnemonic : String)
  deriving DecidableEq, Repr

/-- What one step or one meaning answers. -/
abbrev Result := Host.Outcome State Fault Refusal

/-- The state after construction (70_reset_and_hazards.md R271), with the default parameters. Memory lists nothing: an
unlisted address reads as the font set or 0. `rnd` and `draws` are the model's own (log 2, log 3). -/
def State.reset : State where
  mem := []
  v := Vector.replicate 16 0#8
  i := 0#16
  pc := BitVec.ofNat 16 progBase
  stack := Vector.replicate 16 0#16
  sp := 0
  dt := 0#8
  st := 0#8
  fb := Vector.replicate 32 (Vector.replicate 64 false)
  frameDirty := false
  key := Vector.replicate 16 false
  inputWait := none
  fault := none
  rnd := none
  draws := 0
  cfg := Config.default

end Sys2Proof.Machine
end

