-- ==== Sys2Proof/Machine/Ops.lean ====
section
/-! DEFINITION. The named operations over memory, registers, the stack, the framebuffer and the pc, and the raising of a
fatal fault. -/

namespace Sys2Proof.Machine

/-! ## Memory (20_memory.md) -/

/-- What an address that `mem` does not list reads as: the construction contents, the font from `FONT_BASE` and 0
everywhere else (10_state.md R31, 70_reset_and_hazards.md R271). -/
def Memory.unlisted (a : Nat) : Byte := font.getD (a - fontBase) 0#8

/-- The byte at an address. -/
def Memory.read (m : Memory) (a : Nat) : Byte :=
  match m with
  | [] => Memory.unlisted a
  | c :: cs => if c.1 = a then c.2 else Memory.read cs a

/-- A list of cells with `(a, b)` placed in it: nothing is listed for `a` when `b` is what an unlisted `a` reads as. -/
def Memory.cons (a : Nat) (b : Byte) (m : Memory) : Memory :=
  if b = Memory.unlisted a then m else (a, b) :: m

/-- Replace the byte at an address, keeping the canonical form. -/
def Memory.set (m : Memory) (a : Nat) (b : Byte) : Memory :=
  match m with
  | [] => Memory.cons a b []
  | c :: cs =>
    if a < c.1 then Memory.cons a b (c :: cs)
    else if a = c.1 then Memory.cons a b cs
    else c :: Memory.set cs a b

/-- Every cell of the list lies above `lo`, below 0x1000, in rising order, and differs from the unlisted byte. -/
def Memory.wfFrom (lo : Nat) (m : Memory) : Bool :=
  match m with
  | [] => true
  | c :: cs => decide (lo ≤ c.1) && decide (c.1 < memSize) && decide (c.2 ≠ Memory.unlisted c.1) && Memory.wfFrom (c.1 + 1) cs

/-- The canonical form: addresses strictly rising and inside the 4096-byte array, no entry equal to what its address
reads as when unlisted. -/
def Memory.wf (m : Memory) : Bool := Memory.wfFrom 0 m

/-- `MemWrite(addr, 1, b)`: a write above 0xFFF is dropped (20_memory.md R55). -/
def Memory.write (m : Memory) (a : Nat) (b : Byte) : Memory :=
  if a < memSize then m.set a b else m

/-- Bytes written at consecutive addresses, in ascending order, each under R55 (20_memory.md R57; D32). -/
def Memory.writeBlock (m : Memory) (a : Nat) (bs : List Byte) : Memory :=
  match bs with
  | [] => m
  | b :: rest => Memory.writeBlock (m.write a b) (a + 1) rest

/-- `MemRead(addr, 1)` for data: `none` is the raise of DataReadOutOfRange (20_memory.md R54). -/
def State.memRead (s : State) (a : Nat) : Option Byte :=
  if a < memSize then some (s.mem.read a)
  else match s.cfg.oobRead with
    | .fault => none
    | .any => some (Config.freeDataByte s.draws a)

/-- `n` bytes read from consecutive addresses, lowest first; `none` as soon as one read raises (60_exceptions.md R233,
R241). -/
def State.memReadBlock (s : State) (a : Nat) (n : Nat) : Option (List Byte) :=
  match n with
  | 0 => some []
  | n + 1 =>
    match s.memRead a with
    | none => none
    | some b =>
      match s.memReadBlock (a + 1) n with
      | none => none
      | some bs => some (b :: bs)

/-! ## General registers (10_state.md R21) -/

/-- `V[x]`. -/
def State.reg (s : State) (x : Reg) : Byte := s.v[x.val]'x.isLt

/-- `V[x] <- b`. -/
def State.setReg (s : State) (x : Reg) (b : Byte) : State := { s with v := s.v.set x.val b x.isLt }

/-- `V[0..x]`, lowest number first (43_index_memory.md R174). -/
def State.regsUpTo (s : State) (x : Reg) : List Byte := s.v.toList.take (x.val + 1)

/-- Registers loaded from a list of bytes, starting at register number `k`, in ascending order (43_index_memory.md R175). -/
def State.setRegsFrom (s : State) (k : Nat) (bs : List Byte) : State :=
  match bs with
  | [] => s
  | b :: rest => State.setRegsFrom { s with v := s.v.setIfInBounds k b } (k + 1) rest

/-! ## The return stack (10_state.md R25, R26) -/

/-- `stack[sp] <- a; sp <- sp + 1`, or `none` when the stack is full (41_control_flow.md R122). -/
def State.push (s : State) (a : Word) : Option State :=
  if h : s.sp.val < 16 then
    some { s with stack := s.stack.set s.sp.val a h, sp := ⟨s.sp.val + 1, by omega⟩ }
  else none

/-- `sp <- sp - 1`, and the entry there, which is not cleared; `none` when the stack is empty (41_control_flow.md R120). -/
def State.pop (s : State) : Option (Word × State) :=
  if h : 0 < s.sp.val then
    some (s.stack[s.sp.val - 1]'(by omega), { s with sp := ⟨s.sp.val - 1, by omega⟩ })
  else none

/-! ## The framebuffer (10_state.md R30) -/

/-- `FB[r][c]`. -/
def Framebuffer.pixel (fb : Framebuffer) (r : Fin 32) (c : Fin 64) : Bool := (fb[r.val]'r.isLt)[c.val]'c.isLt

/-- `FB[r][c] <- FB[r][c] ^ 1`. -/
def Framebuffer.flip (fb : Framebuffer) (r : Fin 32) (c : Fin 64) : Framebuffer :=
  fb.set r.val ((fb[r.val]'r.isLt).set c.val (!fb.pixel r c) c.isLt) r.isLt

/-- Every pixel 0. -/
def Framebuffer.clear : Framebuffer := Vector.replicate 32 (Vector.replicate 64 false)

/-! ## Directives (40_cycle.md R106, R107) -/

/-- The control-flow result of an instruction. -/
inductive Directive where
  | next
  | skip
  | jump (a : Word)
  deriving DecidableEq, Repr

/-- `Target(directive)`, computed mod 2^16 (40_cycle.md R107). -/
def Directive.target (d : Directive) (pc : Word) : Word :=
  match d with
  | .next => pc + 2#16
  | .skip => pc + 4#16
  | .jump a => a

/-- `if b then Skip else Next` (41_control_flow.md R124 to R127). -/
def Directive.skipIf (b : Bool) : Directive := if b then .skip else .next

/-- The end of an instruction that completes: the directive is applied to the pc, the single point where control flow is
applied (40_cycle.md R106, R107). -/
def State.finish (s : State) (d : Directive) : Result := .next { s with pc := d.target s.pc }

/-! ## Fatal faults (60_exceptions.md) -/

/-- The numbers of 60_exceptions.md R235; 0 is never used. -/
def FaultCode.num : FaultCode → Byte
  | .stackOverflow => 1#8
  | .stackUnderflow => 2#8
  | .fetchOutOfRange => 3#8
  | .dataReadOutOfRange => 4#8
  | .keyIndexOutOfRange => 5#8

/-- `raise F` (60_exceptions.md R232): the record is written with the `pc` of the cycle and the word (0 in the fetch
phase), and nothing else; there is no directive, so the `pc` stays. The CORE has no return from a fault (R234). -/
def State.raise (s : State) (c : FaultCode) (w : Word) : Result :=
  .next { s with fault := some { code := c, pc := s.pc, word := w } }

end Sys2Proof.Machine
end

