-- ==== Sys2Proof/Machine/Flags.lean ====
section
/-! DEFINITION. The values that `VF` receives (10_state.md R22, 42_alu.md R140), and the results they go with. -/

namespace Sys2Proof.Machine

/-- A flag as the byte that `VF` receives: 0 or 1 (10_state.md R22). -/
def flagByte (b : Bool) : Byte := if b then 1#8 else 0#8

/-- The carry of an 8-bit add: the unsigned sum exceeds 255 (42_alu.md R140, R147). -/
def carryOut (a b : Byte) : Bool := decide (a.toNat + b.toNat > 255)

/-- The flag of a subtract: the minuend is strictly greater than the subtrahend (42_alu.md R140, R148). -/
def notBorrow (a b : Byte) : Bool := decide (a.toNat > b.toNat)

/-- The bit that a right shift by one shifts out (42_alu.md R149). -/
def bitZero (a : Byte) : Bool := a.getLsbD 0

/-- The bit that a left shift by one shifts out (42_alu.md R151). -/
def bitSeven (a : Byte) : Bool := a.getLsbD 7

/-- The result write and then the flag write, so that `x = 15` leaves the flag (42_alu.md section 3; D10; log 11). -/
def State.setRegFlag (s : State) (x : Reg) (res : Byte) (flag : Bool) : State :=
  (s.setReg x res).setReg VF (flagByte flag)

/-- The result write of a logic instruction, and then `if LOGIC_CLEARS_VF then VF <- 0` (42_alu.md R144 to R146). -/
def State.setRegLogic (s : State) (x : Reg) (res : Byte) : State :=
  if s.cfg.logicClearsVF then (s.setReg x res).setReg VF 0#8 else s.setReg x res

end Sys2Proof.Machine
end

