-- ==== Sys2Proof/Machine/Operands.lean ====
section
/-! DEFINITION. The operands that are more than a field of the word: effective addresses, the shift source, the key
test, the random byte, the address of a glyph. -/

namespace Sys2Proof.Machine

/-- `I + k`, a natural number that never wraps (20_memory.md R53). -/
def State.ea (s : State) (k : Nat) : Nat := s.i.toNat + k

/-- `zext_16(nnn)` (30_encoding.md R73). -/
def addrOf (nnn : Addr12) : Word := nnn.setWidth 16

/-- `zext_16(v)` of a byte (00_scope.md R9). -/
def wordOf (b : Byte) : Word := b.setWidth 16

/-- The operand of a shift: `V[y]` when `SHIFT_READS_VY`, else `V[x]` (42_alu.md R149, R151). -/
def State.shiftSource (s : State) (x y : Reg) : Byte :=
  if s.cfg.shiftReadsVy then s.reg y else s.reg x

/-- The byte `rnd` of this cycle: the injected one, or a free draw (60_exceptions.md R254; log 2). -/
def State.rndByte (s : State) : Byte := s.rnd.getD (Config.freeRnd s.draws)

/-- `KeyPressed(b)`: `none` is the raise of KeyIndexOutOfRange (45_timers_input.md R216). -/
def State.keyPressed (s : State) (b : Byte) : Option Bool :=
  if h : b.toNat < 16 then some (s.key[b.toNat]'h)
  else match s.cfg.keyIndex with
    | .fault => none
    | .any => some (Config.freeKey s.draws b)

/-- `FONT_BASE + zext_16(b) * 5`, not masked (43_index_memory.md R172; D15). -/
def glyphAddr (b : Byte) : Word := BitVec.ofNat 16 fontBase + wordOf b * 5#16

/-- The three decimal digits of a byte: hundreds, tens, ones (43_index_memory.md R173). -/
def decimalDigits (b : Byte) : List Byte := [b / 100#8, (b / 10#8) % 10#8, b % 10#8]

/-- `if LOADSTORE_ADVANCES_I then I <- (I + x + 1) mod 2^16` (43_index_memory.md R174, R175). -/
def State.advanceI (s : State) (x : Reg) : State :=
  if s.cfg.loadStoreAdvancesI then { s with i := s.i + BitVec.ofNat 16 (x.val + 1) } else s

end Sys2Proof.Machine
end

