-- ==== Sys2Proof/Machine/ControlFlow.lean ====
section
/-! DEFINITION. The meanings of the control-flow instructions (41_control_flow.md). -/

namespace Sys2Proof.Machine

/-- `00EE` RET (R120): the target is the popped entry; an empty stack raises StackUnderflow. -/
def execRet (s : State) : Result :=
  match s.pop with
  | none => s.raise .stackUnderflow (encode .ret)
  | some (a, s') => s'.finish (.jump a)

/-- `1nnn` JP nnn (R121). -/
def execJp (nnn : Addr12) (s : State) : Result := s.finish (.jump (addrOf nnn))

/-- `2nnn` CALL nnn (R122): pushes the address of the next instruction; a full stack raises StackOverflow. -/
def execCall (nnn : Addr12) (s : State) : Result :=
  match s.push (s.pc + 2#16) with
  | none => s.raise .stackOverflow (encode (.call nnn))
  | some s' => s'.finish (.jump (addrOf nnn))

/-- `Bnnn` JP V0, nnn (R123): the sum is not masked to 12 bits. -/
def execJpV0 (nnn : Addr12) (s : State) : Result := s.finish (.jump (addrOf nnn + wordOf (s.reg 0)))

/-- `3xkk` SE Vx, kk (R124). -/
def execSeImm (x : Reg) (kk : Byte) (s : State) : Result := s.finish (.skipIf (s.reg x == kk))

/-- `4xkk` SNE Vx, kk (R125). -/
def execSneImm (x : Reg) (kk : Byte) (s : State) : Result := s.finish (.skipIf (s.reg x != kk))

/-- `5xy0` SE Vx, Vy (R126). -/
def execSeReg (x y : Reg) (s : State) : Result := s.finish (.skipIf (s.reg x == s.reg y))

/-- `9xy0` SNE Vx, Vy (R127). -/
def execSneReg (x y : Reg) (s : State) : Result := s.finish (.skipIf (s.reg x != s.reg y))

/-- An unknown word (30_encoding.md R84): it only advances the pc. It is no row of the opcode table, so the step, not
`exec`, calls this (log 17). -/
def execUnknown (s : State) : Result := s.finish .next

end Sys2Proof.Machine
end

