-- ==== Sys2Proof/Machine/Cycle.lean ====
section
/-! DEFINITION. The phases of one cycle that come before Execute (40_cycle.md R100 to R104), and the host's placing of an
instruction where the next cycle fetches. -/

namespace Sys2Proof.Machine

/-- The timer tick: down by one, floor at zero (60_exceptions.md R245). -/
def tickByte (b : Byte) : Byte := if b = 0#8 then 0#8 else b - 1#8

/-- `Tick()` (60_exceptions.md R245). -/
def State.tick (s : State) : State := { s with dt := tickByte s.dt, st := tickByte s.st }

/-- Phases 1 and 2 (40_cycle.md R100, R103): `frame_dirty` is cleared and the timers tick, in an AwaitingInput cycle only
when `TICK_WHILE_WAITING`. The draw number moves on, so that the free draws of this cycle are fresh (log 3). -/
def State.beginCycle (s : State) : State :=
  let s1 := { s with frameDirty := false, draws := s.draws + 1 }
  if s.inputWait.isNone || s.cfg.tickWhileWaiting then s1.tick else s1

/-- The least pressed key (40_cycle.md R104; D4; log 10). -/
def State.leastKey (s : State) : Option (Fin 16) := (List.finRange 16).find? (fun k => s.key[k.val]'k.isLt)

/-- `WaitPhase()` for the waiting register `r` (40_cycle.md R104): `none` while no key is pressed, else the state with
the key number stored and the latch cleared. -/
def State.resolveWait (s : State) (r : Reg) : Option State :=
  match s.leastKey with
  | none => none
  | some k => some { (s.setReg r (BitVec.ofNat 8 k.val)) with inputWait := none }

/-- What the wait phase leaves to do (40_cycle.md R100, phase 3). -/
inductive AfterWait where
  /-- The cycle ends here. -/
  | done (s : State)
  /-- The cycle goes on to fetch. -/
  | proceed (s : State)
  deriving DecidableEq, Repr

/-- Phase 3 (40_cycle.md R100, R104). What it writes stays when a later phase of the same cycle faults (DEDUCED, log 29). -/
def State.waitPhase (s : State) : AfterWait :=
  match s.inputWait with
  | none => .proceed s
  | some r =>
    match s.resolveWait r with
    | none => .done s
    | some s' => if s.cfg.resolveThenExecute then .proceed s' else .done s'

/-- One byte of a fetch: a free draw above 0xFFF (40_cycle.md R102). -/
def State.fetchByte (s : State) (a : Nat) : Byte :=
  if a < memSize then s.mem.read a else Config.freeFetchByte s.draws a

/-- `Fetch(pc)`: big-endian, no alignment check; `none` is the raise of FetchOutOfRange (40_cycle.md R102). -/
def State.fetch (s : State) : Option Word :=
  if s.pc.toNat + 1 < memSize ∨ s.cfg.oobRead = .any then
    some (Word.ofBytes (s.fetchByte s.pc.toNat) (s.fetchByte (s.pc.toNat + 1)))
  else none

/-- The address at which `withFetchWord` places an instruction: the `pc`, or 0x200 when nothing can be fetched at the
`pc` (log 27). -/
def State.placePc (s : State) : Word :=
  if s.pc.toNat + 1 < memSize then s.pc else BitVec.ofNat 16 progBase

/-- `s` Running, with `word` stored high byte first where the next cycle fetches (log 8, log 27). -/
def State.placeWord (s : State) (word : Word) : State :=
  { s with
    mem := s.mem.writeBlock s.placePc.toNat [word.hiByte, word.loByte]
    pc := s.placePc
    inputWait := none
    fault := none }

end Sys2Proof.Machine
end

