-- ==== Sys2Proof/Machine/Alu.lean ====
section
/-! DEFINITION. The meanings of the register and arithmetic instructions (42_alu.md). The operands are read before any
write (00_scope.md R11). -/

namespace Sys2Proof.Machine

/-- `6xkk` LD Vx, kk (R141). -/
def execLdImm (x : Reg) (kk : Byte) (s : State) : Result := (s.setReg x kk).finish .next

/-- `7xkk` ADD Vx, kk (R142): wraps modulo 256, writes no flag. -/
def execAddImm (x : Reg) (kk : Byte) (s : State) : Result := (s.setReg x (s.reg x + kk)).finish .next

/-- `8xy0` LD Vx, Vy (R143). -/
def execLdReg (x y : Reg) (s : State) : Result := (s.setReg x (s.reg y)).finish .next

/-- `8xy1` OR Vx, Vy (R144). -/
def execOrReg (x y : Reg) (s : State) : Result := (s.setRegLogic x (s.reg x ||| s.reg y)).finish .next

/-- `8xy2` AND Vx, Vy (R145). -/
def execAndReg (x y : Reg) (s : State) : Result := (s.setRegLogic x (s.reg x &&& s.reg y)).finish .next

/-- `8xy3` XOR Vx, Vy (R146). -/
def execXorReg (x y : Reg) (s : State) : Result := (s.setRegLogic x (s.reg x ^^^ s.reg y)).finish .next

/-- `8xy4` ADD Vx, Vy (R147): `VF` is the carry. -/
def execAddReg (x y : Reg) (s : State) : Result :=
  (s.setRegFlag x (s.reg x + s.reg y) (carryOut (s.reg x) (s.reg y))).finish .next

/-- `8xy5` SUB Vx, Vy (R148): `VF` is 1 exactly when `V[x] > V[y]`. -/
def execSubReg (x y : Reg) (s : State) : Result :=
  (s.setRegFlag x (s.reg x - s.reg y) (notBorrow (s.reg x) (s.reg y))).finish .next

/-- `8xy6` SHR Vx (R149): `VF` is the bit shifted out. -/
def execShr (x y : Reg) (s : State) : Result :=
  (s.setRegFlag x (s.shiftSource x y >>> 1) (bitZero (s.shiftSource x y))).finish .next

/-- `8xy7` SUBN Vx, Vy (R150): `V[y] - V[x]`, and `VF` is 1 exactly when `V[y] > V[x]`. -/
def execSubnReg (x y : Reg) (s : State) : Result :=
  (s.setRegFlag x (s.reg y - s.reg x) (notBorrow (s.reg y) (s.reg x))).finish .next

/-- `8xyE` SHL Vx (R151): `VF` is the bit shifted out. -/
def execShl (x y : Reg) (s : State) : Result :=
  (s.setRegFlag x (s.shiftSource x y <<< 1) (bitSeven (s.shiftSource x y))).finish .next

/-- `Cxkk` RND Vx, kk (R152). -/
def execRnd (x : Reg) (kk : Byte) (s : State) : Result := (s.setReg x (s.rndByte &&& kk)).finish .next

end Sys2Proof.Machine
end

