-- ==== Sys2Proof/Machine/Display.lean ====
section
/-! DEFINITION. The meanings of the display instructions (44_display.md). -/

namespace Sys2Proof.Machine

/-- `00E0` CLS (R190). -/
def execCls (s : State) : Result :=
  State.finish { s with fb := Framebuffer.clear, frameDirty := true } .next

/-- The framebuffer and the collision flag while a sprite is drawn (44_display.md R191). -/
abbrev Blit := Framebuffer × Bool

/-- One set bit of a sprite: the pixel is flipped, and a pixel that was 1 is a collision (R191). -/
def Blit.hit (b : Blit) (py : Fin 32) (px : Fin 64) : Blit := (b.1.flip py px, b.2 || b.1.pixel py px)

/-- The pixel row of sprite row `r`: `(vy + r) mod 32` (R191). -/
def spriteRow (vy : Byte) (r : Nat) : Fin 32 := Fin.ofNat 32 (vy.toNat + r)

/-- The pixel column of sprite column `c`: `(vx + c) mod 64` (R191). -/
def spriteCol (vx : Byte) (c : Nat) : Fin 64 := Fin.ofNat 64 (vx.toNat + c)

/-- The bits of one sprite row from column `c` on, `k` of them: bit 7 is column 0 (R191; D16; log 13). -/
def Blit.drawBits (b : Blit) (py : Fin 32) (vx row : Byte) (c k : Nat) : Blit :=
  match k with
  | 0 => b
  | k + 1 =>
    Blit.drawBits (if row.getLsbD (7 - c) then b.hit py (spriteCol vx c) else b) py vx row (c + 1) k

/-- The rows of a sprite from row `r` on (R191). -/
def Blit.drawRows (b : Blit) (vx vy : Byte) (r : Nat) (rows : List Byte) : Blit :=
  match rows with
  | [] => b
  | row :: rest => Blit.drawRows (b.drawBits (spriteRow vy r) vx row 0 8) vx vy (r + 1) rest

/-- `Dxyn` DRW Vx, Vy, n (R191): every read first, then the pixels, then `VF`, then `frame_dirty`. -/
def execDrw (x y : Reg) (n : Nibble) (s : State) : Result :=
  match s.memReadBlock (s.ea 0) n.toNat with
  | none => s.raise .dataReadOutOfRange (encode (.drw x y n))
  | some rows =>
    let drawn := Blit.drawRows (s.fb, false) (s.reg x) (s.reg y) 0 rows
    State.finish { (s.setReg VF (flagByte drawn.2)) with fb := drawn.1, frameDirty := true } .next

end Sys2Proof.Machine
end

