-- ==== Sys2Proof/Machine/IndexMemory.lean ====
section
/-! DEFINITION. The meanings of the index-register and memory instructions (43_index_memory.md). -/

namespace Sys2Proof.Machine

/-- `Annn` LD I, nnn (R170). -/
def execLdI (nnn : Addr12) (s : State) : Result := State.finish { s with i := addrOf nnn } .next

/-- `Fx1E` ADD I, Vx (R171): wraps at 16 bits, writes no flag. -/
def execAddI (x : Reg) (s : State) : Result := State.finish { s with i := s.i + wordOf (s.reg x) } .next

/-- `Fx29` LD F, Vx (R172). -/
def execLdF (x : Reg) (s : State) : Result := State.finish { s with i := glyphAddr (s.reg x) } .next

/-- `Fx33` LD B, Vx (R173). -/
def execLdB (x : Reg) (s : State) : Result :=
  State.finish { s with mem := s.mem.writeBlock (s.ea 0) (decimalDigits (s.reg x)) } .next

/-- `Fx55` LD [I], Vx (R174). -/
def execStore (x : Reg) (s : State) : Result :=
  (State.advanceI { s with mem := s.mem.writeBlock (s.ea 0) (s.regsUpTo x) } x).finish .next

/-- `Fx65` LD Vx, [I] (R175): every read comes before the first register write. -/
def execLoad (x : Reg) (s : State) : Result :=
  match s.memReadBlock (s.ea 0) (x.val + 1) with
  | none => s.raise .dataReadOutOfRange (encode (.load x))
  | some bs => ((s.setRegsFrom 0 bs).advanceI x).finish .next

end Sys2Proof.Machine
end

