-- ==== Sys2Proof/Machine/TimersInput.lean ====
section
/-! DEFINITION. The meanings of the keypad and timer instructions (45_timers_input.md). -/

namespace Sys2Proof.Machine

/-- `Ex9E` SKP Vx (R210). -/
def execSkp (x : Reg) (s : State) : Result :=
  match s.keyPressed (s.reg x) with
  | none => s.raise .keyIndexOutOfRange (encode (.skp x))
  | some down => s.finish (.skipIf down)

/-- `ExA1` SKNP Vx (R211). -/
def execSknp (x : Reg) (s : State) : Result :=
  match s.keyPressed (s.reg x) with
  | none => s.raise .keyIndexOutOfRange (encode (.sknp x))
  | some down => s.finish (.skipIf (!down))

/-- `Fx07` LD Vx, DT (R212). -/
def execLdVxDT (x : Reg) (s : State) : Result := (s.setReg x s.dt).finish .next

/-- `Fx0A` LD Vx, K (R215): only the latch is set; the wait phase of a later cycle stores the key. -/
def execLdVxK (x : Reg) (s : State) : Result := State.finish { s with inputWait := some x } .next

/-- `Fx15` LD DT, Vx (R213). -/
def execLdDTVx (x : Reg) (s : State) : Result := State.finish { s with dt := s.reg x } .next

/-- `Fx18` LD ST, Vx (R214). -/
def execLdSTVx (x : Reg) (s : State) : Result := State.finish { s with st := s.reg x } .next

end Sys2Proof.Machine
end

