-- ==== Sys2Proof/Machine/Step.lean ====
section
/-! DEFINITION. One step: one call of `cycle()` (40_cycle.md R100). -/

namespace Sys2Proof.Machine

/-- Phases 5 to 7 on a fetched word: decode, execute, apply the directive (40_cycle.md R105 to R107). An unknown word
executes as Next (30_encoding.md R84). -/
def execWord (w : Word) (s : State) : Host.Outcome State Fault Refusal :=
  match decode w with
  | .instr i => exec i s
  | .unknown _ => execUnknown s

/-- Phases 4 to 7 (40_cycle.md R100): a fetch fault records the word 0 (60_exceptions.md R232, R238). -/
def fetchExecute (s : State) : Host.Outcome State Fault Refusal :=
  match s.fetch with
  | none => s.raise .fetchOutOfRange 0#16
  | some w => execWord w s

/-- `cycle()` (40_cycle.md R100). A Faulted CORE stays as it is (60_exceptions.md R234). DEDUCED from R100's order: when a
cycle that resolves a key wait goes on (`RESOLVE_THEN_EXECUTE = true`) and then faults, the key stored and the wait cleared in
phase 3 stay, as what phases 1 and 2 did; R108's list names only those two phases (log 29). -/
def step (s : State) : Host.Outcome State Fault Refusal :=
  match s.fault with
  | some _ => .next s
  | none =>
    match s.beginCycle.waitPhase with
    | .done s' => .next s'
    | .proceed s' => fetchExecute s'

/-- The state with the host's instruction word placed where the next step fetches it: every instruction is one 16-bit
word, numbered as the opcode table numbers it (30_encoding.md R70; log 8). -/
def State.withFetchWord (s : State) (nbits w : Nat) : State := s.placeWord (BitVec.ofNat 16 (w % 2 ^ nbits))

end Sys2Proof.Machine
end

