-- ==== Sys2Proof/Machine/Interface.lean ====
section
/-! DEFINITION. The host's side (60_exceptions.md R250 to R257, 70_reset_and_hazards.md R270 to R277): construction, the
loader, the inputs of a cycle, its outputs, and a session. -/

namespace Sys2Proof.Machine

/-- Construction with given parameters and font bytes (70_reset_and_hazards.md R271; 00_scope.md R7 `FONT`). Of a longer
list only the first 80 bytes are the font. -/
def State.construct (cfg : Config) (fontBytes : List Byte) : State :=
  { State.reset with cfg := cfg, mem := Memory.writeBlock [] fontBase (fontBytes.take 80) }

/-- The program loader: the image from 0x200 on, bytes beyond 0xFFF dropped (70_reset_and_hazards.md R275). -/
def State.loadImage (s : State) (image : List Byte) : State := { s with mem := s.mem.writeBlock progBase image }

/-- What the host supplies before a cycle: the keypad snapshot and the random byte, `none` for a free draw
(60_exceptions.md R251, R254). -/
structure HostInput where
  keypad : Vector Bool 16
  rnd : Option Byte
  deriving DecidableEq, Repr

/-- The host writes its inputs between cycles (60_exceptions.md R251). -/
def State.withInput (s : State) (inp : HostInput) : State := { s with key := inp.keypad, rnd := inp.rnd }

/-- The outputs of 60_exceptions.md R250. -/
structure Outputs where
  fb : Framebuffer
  frameDirty : Bool
  tone : Bool
  awaitingInput : Bool
  fault : Option FaultRecord
  deriving DecidableEq, Repr

/-- `tone = (ST > 0)` (60_exceptions.md R253). -/
def State.tone (s : State) : Bool := decide (s.st ≠ 0#8)

/-- The outputs, read on the state the step left (60_exceptions.md R250). -/
def State.outputs (s : State) : Outputs where
  fb := s.fb
  frameDirty := s.frameDirty
  tone := s.tone
  awaitingInput := s.inputWait.isSome
  fault := s.fault

/-- The host writes its inputs and calls `cycle()` (70_reset_and_hazards.md R277). -/
def cycle (inp : HostInput) (s : State) : Result := step (s.withInput inp)

/-- The host's loop of 70_reset_and_hazards.md R277: one cycle for each entry of the list, stopping when the list ends
(R286). -/
def runCycles (inputs : List HostInput) (s : State) : Result :=
  match inputs with
  | [] => .next s
  | inp :: rest =>
    match cycle inp s with
    | .next s' => runCycles rest s'
    | .fault r => .fault r
    | .refused r => .refused r

/-- A session: construct, load, run (70_reset_and_hazards.md R277). -/
def session (cfg : Config) (fontBytes image : List Byte) (inputs : List HostInput) : Result :=
  runCycles inputs ((State.construct cfg fontBytes).loadImage image)

end Sys2Proof.Machine
end

