-- ==== Sys2Proof/Safety.lean ====
section
/-! DEFINITION. The terms claims use: the cycle states, the invariants, what a meaning leaves unchanged, where a word
decodes to an instruction. -/

namespace Sys2Proof.Machine

/-! ## Cycle states (40_cycle.md R101) -/

/-- Running: no fault and no wait. -/
abbrev State.Running (s : State) : Prop := s.fault = none ∧ s.inputWait = none

/-- AwaitingInput, for the register `r`. -/
abbrev State.Awaiting (s : State) (r : Reg) : Prop := s.fault = none ∧ s.inputWait = some r

/-- Faulted. -/
abbrev State.Faulted (s : State) : Prop := s.fault ≠ none

/-- A run that ends here has not failed (70_reset_and_hazards.md R286). -/
abbrev State.Safe (s : State) : Prop := s.fault = none

/-- The two bytes at the `pc` exist (40_cycle.md R102). -/
abbrev State.FetchInRange (s : State) : Prop := s.pc.toNat + 1 ≤ 0xFFF

/-- The word in memory at the `pc`, high byte first (40_cycle.md R102). -/
def State.wordAtPc (s : State) : Word := Word.ofBytes (s.mem.read s.pc.toNat) (s.mem.read (s.pc.toNat + 1))

/-- A Running state whose next cycle executes the instruction `i`. -/
abbrev State.Fetches (s : State) (i : Instr) : Prop := s.Running ∧ s.FetchInRange ∧ decode s.wordAtPc = .instr i

/-! ## Invariants -/

/-- Memory is in its canonical form. -/
abbrev State.MemCanonical (s : State) : Prop := s.mem.wf = true

/-- Under `OOB_READ_POLICY = fault`, the bounds of 40_cycle.md R107: the pc never passes 0x10FE and no return address
passes 0x1000, so no target is ever reduced mod 2^16. -/
structure State.PcBounded (s : State) : Prop where
  policy : s.cfg.oobRead = .fault
  pc : s.pc.toNat ≤ 0x10FE
  stack : ∀ (n : Nat) (h : n < 16), s.stack[n].toNat ≤ 0x1000

/-! ## Frames -/

/-- The parts of the state, the pc apart, that an instruction may change. -/
structure Touches where
  regs : List Reg := []
  mem : List Nat := []
  i : Bool := false
  stack : List Nat := []
  sp : Bool := false
  dt : Bool := false
  st : Bool := false
  display : Bool := false
  inputWait : Bool := false

/-- From `s` to `t`, nothing changes but the pc and what `k` names: every other register, every other byte of memory,
every other stack entry, and every other element as before. -/
structure Frame (k : Touches) (s t : State) : Prop where
  regs : ∀ r : Reg, r ∉ k.regs → t.reg r = s.reg r
  mem : ∀ a : Nat, a ∉ k.mem → t.mem.read a = s.mem.read a
  i : k.i = false → t.i = s.i
  stack : ∀ (n : Nat) (h : n < 16), n ∉ k.stack → t.stack[n] = s.stack[n]
  sp : k.sp = false → t.sp = s.sp
  dt : k.dt = false → t.dt = s.dt
  st : k.st = false → t.st = s.st
  fb : k.display = false → t.fb = s.fb
  frameDirty : k.display = false → t.frameDirty = s.frameDirty
  inputWait : k.inputWait = false → t.inputWait = s.inputWait
  fault : t.fault = s.fault
  key : t.key = s.key
  rnd : t.rnd = s.rnd
  draws : t.draws = s.draws
  cfg : t.cfg = s.cfg

/-- `exec` answers a next state, and that state is as `P` says. -/
def Completes (i : Instr) (s : State) (P : State → Prop) : Prop := ∃ t, exec i s = .next t ∧ P t

/-- The meaning raises the fatal fault `c`: the record is written and nothing else changes (60_exceptions.md R232,
R233). -/
def Raises (i : Instr) (s : State) (c : FaultCode) (w : Word) : Prop :=
  exec i s = .next { s with fault := some { code := c, pc := s.pc, word := w } }

/-- Every word with these mask and match columns decodes to the instruction `f` builds from its fields (30_encoding.md
R71, R80). -/
def DecodesAs (mask value : Word) (f : Word → Instr) : Prop := ∀ w : Word, w &&& mask = value → decode w = .instr (f w)

/-- A timer after one tick (60_exceptions.md R245). -/
def ticked (b : Byte) : Byte := if 0 < b.toNat then b - 1#8 else b

/-- `s` as phases 1 and 2 leave it when the timers tick (40_cycle.md R100); the draw number is the model's own (log 3). -/
def State.afterTick (s : State) : State :=
  { s with frameDirty := false, draws := s.draws + 1, dt := ticked s.dt, st := ticked s.st }

/-- `s` as phases 1 and 2 leave it when the timers do not tick (40_cycle.md R100). -/
def State.afterClear (s : State) : State := { s with frameDirty := false, draws := s.draws + 1 }

/-- The bit of a sprite that falls on a pixel: the row `r` and column `c` of the sprite whose pixel this is, if there is
one, selects bit `7 - c` of the sprite's byte `r` (44_display.md R191). -/
def spriteBit (rows : List Byte) (vx vy : Byte) (py : Fin 32) (px : Fin 64) : Bool :=
  (List.range rows.length).any fun r =>
    (List.range 8).any fun c =>
      decide ((vy.toNat + r) % 32 = py.val) && decide ((vx.toNat + c) % 64 = px.val) &&
        (rows.getD r 0#8).getLsbD (7 - c)

end Sys2Proof.Machine
end

