-- ==== Sys2Proof/Certificates/Slice0/Obligations.lean ====
section
/-! DEFINITION. The statements for the provers. Each docstring names the rules of spec/ it formalises, and the log row or
decision of spec/92_eei_decisions.md it rests on where it rests on one. -/

open Sys2Proof Sys2Proof.Machine

/-! ## Encoding and decoding (30_encoding.md) -/

/-- Words written out from the patterns of R80 decode to the instructions of their rows, every family once. -/
def Obligations.PatternWordsDecode : Prop :=
  decode 0x00E0#16 = .instr .cls ∧ decode 0x00EE#16 = .instr .ret ∧
  decode 0x1ABC#16 = .instr (.jp 0xABC#12) ∧ decode 0x2210#16 = .instr (.call 0x210#12) ∧
  decode 0x3342#16 = .instr (.seImm 3 0x42#8) ∧ decode 0x5120#16 = .instr (.seReg 1 2) ∧
  decode 0x7102#16 = .instr (.addImm 1 0x02#8) ∧ decode 0x812E#16 = .instr (.shl 1 2) ∧
  decode 0xA123#16 = .instr (.ldI 0x123#12) ∧ decode 0xC30F#16 = .instr (.rnd 3 0x0F#8) ∧
  decode 0xD12F#16 = .instr (.drw 1 2 0xF#4) ∧ decode 0xE5A1#16 = .instr (.sknp 5) ∧
  decode 0xF265#16 = .instr (.load 2) ∧ decode 0x01E0#16 = .unknown 0x01E0#16 ∧
  decode 0x5121#16 = .unknown 0x5121#16

/-- Decoding the word of an instruction gives it back, for every instruction and every operand. -/
def Obligations.DecodeOfEncodeIsIdentity : Prop := ∀ i : Instr, decode (encode i) = .instr i

/-- A word that decodes to an instruction is the word of that instruction: decoding drops no bit, the ignored `y` of the
shifts included (R74). So the word a fault record holds is the fetched one (log 5). -/
def Obligations.EncodeOfDecodedIsTheWord : Prop := ∀ (w : Word) (i : Instr), decode w = .instr i → encode i = w

/-- R80, R105: the decoder and the opcode map agree on every word: a word decodes to an instruction of a row exactly when
the row's mask and match fit it, at most one row fits, and a word that no row fits is UNKNOWN. -/
def Obligations.DecodeFollowsTheOpcodeMap : Prop :=
  ∀ w : Word,
    (∀ i : Instr, decode w = .instr i → i.row ∈ opcodeRows ∧ i.row.fits w = true) ∧
    (∀ r ∈ opcodeRows, r.fits w = true → ∃ i : Instr, decode w = .instr i ∧ i.row = r) ∧
    (∀ r ∈ opcodeRows, ∀ r' ∈ opcodeRows, r.fits w = true → r'.fits w = true → r = r') ∧
    ((∀ r ∈ opcodeRows, r.fits w = false) → decode w = .unknown w)

/-- R84: the unknown words are exactly those listed, and executing one only advances the pc by 2. -/
def Obligations.UnknownWordsOnlyAdvanceThePc : Prop :=
  ∀ w : Word,
    (decode w = .unknown w ↔
      (w.op = 0x0#4 ∧ w ≠ 0x00E0#16 ∧ w ≠ 0x00EE#16) ∨
      (w.op = 0x5#4 ∧ w.n ≠ 0x0#4) ∨
      (w.op = 0x8#4 ∧ w.n ∈ [0x8#4, 0x9#4, 0xA#4, 0xB#4, 0xC#4, 0xD#4, 0xF#4]) ∨
      (w.op = 0x9#4 ∧ w.n ≠ 0x0#4) ∨
      (w.op = 0xE#4 ∧ w.kk ∉ [0x9E#8, 0xA1#8]) ∨
      (w.op = 0xF#4 ∧
        w.kk ∉ [0x07#8, 0x0A#8, 0x15#8, 0x18#8, 0x1E#8, 0x29#8, 0x33#8, 0x55#8, 0x65#8])) ∧
    (∀ s : State, decode w = .unknown w → execWord w s = .next { s with pc := s.pc + 2 })

/-! ## The cycle (40_cycle.md) -/

/-- R100, R102: in a Running state whose two bytes at the pc exist, the step clears `frame_dirty`, ticks the timers and
executes the word that the two bytes spell: an instruction by `exec`, an unknown word as Next. -/
def Obligations.StepRunsTheDecodedInstruction : Prop :=
  ∀ s : State, s.Running → s.FetchInRange →
    (∀ i : Instr, decode s.wordAtPc = .instr i → step s = exec i s.afterTick) ∧
    (∀ w : Word, decode s.wordAtPc = .unknown w → step s = .next { s.afterTick with pc := s.pc + 2 })

/-- R100 and R104 in AwaitingInput, for both values of TICK_WHILE_WAITING (D2) and of RESOLVE_THEN_EXECUTE (D3): with no
key pressed the cycle ends there; with `k` the least pressed key (D4), `V[r]` receives `k` and the latch is cleared, and
the cycle ends there, or goes on to fetch and execute. When the word executed then faults, the key stored and the latch
cleared stay: that is the model's reading of R100's order (DEDUCED, log 29). -/
def Obligations.WaitPhaseStoresTheLeastKey : Prop :=
  ∀ (s : State) (r : Reg), s.Awaiting r →
    let s1 := if s.cfg.tickWhileWaiting then s.afterTick else s.afterClear
    ((∀ k : Fin 16, s.key[k.val] = false) → step s = .next s1) ∧
    (∀ k : Fin 16, s.key[k.val] = true → (∀ j : Fin 16, j < k → s.key[j.val] = false) →
      let s2 := { s1 with v := s.v.set r.val (BitVec.ofNat 8 k.val), inputWait := none }
      (s.cfg.resolveThenExecute = false → step s = .next s2) ∧
      (s.cfg.resolveThenExecute = true → s.FetchInRange → step s = execWord s.wordAtPc s2))

/-- R217, R109, R282: while the host's snapshots show no key, AwaitingInput lasts: no register, no pc, no stack entry, no
pixel and no memory byte changes, the timers tick once a cycle when TICK_WHILE_WAITING (D2) and not otherwise; the first
snapshot with key 0 pressed then stores 0 in `V[r]` and clears the wait, and with RESOLVE_THEN_EXECUTE = false (D3) nothing
executes in that cycle. It says nothing of `frame_dirty`, which R103 clears in each of these cycles. R217 has key 0 as the
only key pressed; that other keys may be down beside it rests on the least-key decision D4 (log 10). -/
def Obligations.KeyWaitLastsUntilAKey : Prop :=
  ∀ (inputs : List HostInput) (last : HostInput) (s : State) (r : Reg), s.Awaiting r →
    s.cfg.resolveThenExecute = false →
    (∀ inp ∈ inputs, ∀ k : Fin 16, inp.keypad[k.val] = false) → last.keypad[0] = true →
    ∃ t u, runCycles inputs s = .next t ∧ cycle last t = .next u ∧
      t.Awaiting r ∧ t.v = s.v ∧ t.pc = s.pc ∧ t.i = s.i ∧ t.mem = s.mem ∧ t.fb = s.fb ∧ t.stack = s.stack ∧ t.sp = s.sp ∧
      t.dt.toNat = (if s.cfg.tickWhileWaiting then s.dt.toNat - inputs.length else s.dt.toNat) ∧
      t.st.toNat = (if s.cfg.tickWhileWaiting then s.st.toNat - inputs.length else s.st.toNat) ∧
      u.Running ∧ u.reg r = 0 ∧ (∀ q : Reg, q ≠ r → u.reg q = s.reg q) ∧ u.pc = s.pc ∧ u.mem = s.mem

/-- R102, R238, R108 (D6): a Running state with `pc >= 0xFFF` under OOB_READ_POLICY = fault records FetchOutOfRange with
the word 0 and keeps the pc; `frame_dirty` and the timers have moved; the code is 3. -/
def Obligations.FetchBeyondMemoryFaults : Prop :=
  FaultCode.num .fetchOutOfRange = 3 ∧
  ∀ s : State, s.Running → 0xFFF ≤ s.pc.toNat → s.cfg.oobRead = .fault →
    step s = .next { s.afterTick with fault := some { code := .fetchOutOfRange, pc := s.pc, word := 0 } }

/-- R102 under OOB_READ_POLICY = any: the bytes above 0xFFF are free draws and the fetched word executes. -/
def Obligations.FetchBeyondMemoryMayBeFree : Prop :=
  ∀ s : State, s.Running → 0xFFF ≤ s.pc.toNat → s.cfg.oobRead = .any →
    ∃ hi lo : Byte, (s.pc.toNat = 0xFFF → hi = s.mem.read 0xFFF) ∧
      step s = execWord (Word.ofBytes hi lo) s.afterTick

/-- R234: from a Faulted state, any number of cycles changes nothing. -/
def Obligations.FaultedChangesNothing : Prop :=
  ∀ (n : Nat) (s : State), s.Faulted → Host.Core.run core n s = .next s

/-- R101: no state is terminal and no cycle stops the machine: every step of every state answers a next state. -/
def Obligations.EveryStepHasANextState : Prop := ∀ s : State, ∃ t, step s = .next t

/-- R110, R251: no cycle writes the keypad snapshot, the injected random byte or the parameters. -/
def Obligations.InputsAreNeverWritten : Prop :=
  ∀ s t : State, step s = .next t → t.key = s.key ∧ t.rnd = s.rnd ∧ t.cfg = s.cfg

/-- R245, R28: in a Running cycle each timer moves down by one and stops at zero, unless the cycle completes `Fx15` or
`Fx18`, which write the value of their register; `V[x]` is read as it was. -/
def Obligations.TimersTickOncePerCycle : Prop :=
  ∀ (s t : State) (i : Instr), s.Fetches i → step s = .next t →
    t.dt = (match i with | .ldDTVx x => s.reg x | _ => ticked s.dt) ∧
    t.st = (match i with | .ldSTVx x => s.reg x | _ => ticked s.st)

/-- R103: after a cycle that executes an instruction and does not fault, `frame_dirty` is 1 exactly when that instruction
is `00E0` or `Dxyn`; after a cycle that faults it is 0. -/
def Obligations.FrameDirtyTellsADraw : Prop :=
  ∀ (s t : State) (i : Instr), s.Fetches i → step s = .next t →
    (t.Safe → (t.frameDirty = true ↔ (i = .cls ∨ ∃ x y n, i = .drw x y n))) ∧
    (t.Faulted → t.frameDirty = false)

/-! ## Faults (60_exceptions.md) -/

/-- R232, R233, R235: faults are precise. Whatever instruction runs in a state with no fault, either no fault is recorded,
or the record is the whole change (so the pc stays), it holds the pc and the word of the instruction, and its code is
the one R235 gives the instruction, with R235's condition. -/
def Obligations.FaultsArePrecise : Prop :=
  ∀ (i : Instr) (s t : State), s.Safe → exec i s = .next t →
    t.Safe ∨ ∃ c : FaultCode,
      t = { s with fault := some { code := c, pc := s.pc, word := encode i } } ∧
      ((c.num = 1 ∧ (∃ nnn, i = .call nnn) ∧ s.sp = 16) ∨
       (c.num = 2 ∧ i = .ret ∧ s.sp = 0) ∨
       (c.num = 4 ∧ s.cfg.oobRead = .fault ∧
          ((∃ x y n, i = .drw x y n ∧ 0xFFF < s.i.toNat + n.toNat - 1 ∧ 0 < n.toNat) ∨
           (∃ x, i = .load x ∧ 0xFFF < s.i.toNat + x.val))) ∨
       (c.num = 5 ∧ s.cfg.keyIndex = .fault ∧ ∃ x, (i = .skp x ∨ i = .sknp x) ∧ 15 < (s.reg x).toNat))

/-! ## Who writes what (10_state.md R21 to R30, 20_memory.md R50) -/

/-- R25, R26: only `2nnn` writes a stack entry, and only `2nnn` and `00EE` move `sp`. -/
def Obligations.OnlyCallAndReturnUseTheStack : Prop :=
  ∀ (i : Instr) (s t : State), exec i s = .next t →
    (t.stack ≠ s.stack → ∃ nnn, i = .call nnn) ∧ (t.sp ≠ s.sp → (∃ nnn, i = .call nnn) ∨ i = .ret)

/-- R50, R23: only `Fx33` and `Fx55` change memory; only `Annn`, `Fx1E` and `Fx29`, and with LOADSTORE_ADVANCES_I `Fx55`
and `Fx65`, change `I`. -/
def Obligations.OnlyStoresWriteMemoryOnlyIndexOpsWriteI : Prop :=
  ∀ (i : Instr) (s t : State), exec i s = .next t →
    (t.mem ≠ s.mem → ∃ x, i = .ldB x ∨ i = .store x) ∧
    (t.i ≠ s.i →
      (∃ nnn, i = .ldI nnn) ∨ (∃ x, i = .addI x ∨ i = .ldF x) ∨
      (s.cfg.loadStoreAdvancesI = true ∧ ∃ x, i = .store x ∨ i = .load x))

/-- R27, R28, R29, R30: only `Fx15` writes `DT`, only `Fx18` writes `ST`, only `00E0` and `Dxyn` write `FB` and
`frame_dirty`, only `Fx0A` writes `input_wait`. -/
def Obligations.OnlyTheirInstructionsWriteTimersDisplayAndLatch : Prop :=
  ∀ (i : Instr) (s t : State), exec i s = .next t →
    (t.dt ≠ s.dt → ∃ x, i = .ldDTVx x) ∧ (t.st ≠ s.st → ∃ x, i = .ldSTVx x) ∧
    (t.fb ≠ s.fb ∨ t.frameDirty ≠ s.frameDirty → i = .cls ∨ ∃ x y n, i = .drw x y n) ∧
    (t.inputWait ≠ s.inputWait → ∃ x, i = .ldVxK x)

/-- R22: a flag-setting instruction that completes leaves 0 or 1 in `VF`, whatever its operands, and an instruction that
is neither flag-setting nor names `VF` as its destination leaves `VF` alone, OR, AND and XOR with LOGIC_CLEARS_VF (D11)
apart. For `x = 15` the flag-setting clause rests on the flag being written last, decision D10 (42_alu.md section 3; log 11). -/
def Obligations.FlagInstructionsAloneSetVF : Prop :=
  ∀ (i : Instr) (s t : State), exec i s = .next t → t.Safe →
    (match i with
      | .addReg _ _ | .subReg _ _ | .shr _ _ | .subnReg _ _ | .shl _ _ | .drw _ _ _ => t.reg VF = 0 ∨ t.reg VF = 1
      | .ldImm x _ | .addImm x _ | .ldReg x _ | .rnd x _ | .ldVxDT x | .load x => x ≠ VF → t.reg VF = s.reg VF
      | .orReg x _ | .andReg x _ | .xorReg x _ => x ≠ VF → t.reg VF = if s.cfg.logicClearsVF then 0 else s.reg VF
      | _ => t.reg VF = s.reg VF)

/-! ## Control flow (41_control_flow.md) -/

/-- R121: `1nnn` sets the pc to `nnn` and changes nothing else. -/
def Obligations.JumpGoesToItsAddress : Prop :=
  DecodesAs 0xF000 0x1000 (fun w => .jp w.nnn) ∧
  ∀ (nnn : Addr12) (s : State), Completes (.jp nnn) s fun t => t.pc.toNat = nnn.toNat ∧ Frame {} s t

/-- R122, R236: `2nnn` stores the address of the next instruction (D9) at `stack[sp]`, increments `sp` and jumps; with
`sp = 16` it raises StackOverflow, code 1. -/
def Obligations.CallPushesTheReturnAddress : Prop :=
  DecodesAs 0xF000 0x2000 (fun w => .call w.nnn) ∧ FaultCode.num .stackOverflow = 1 ∧
  ∀ (nnn : Addr12) (s : State),
    (∀ h : s.sp.val < 16, Completes (.call nnn) s fun t =>
      t.stack[s.sp.val] = s.pc + 2 ∧ t.sp.val = s.sp.val + 1 ∧ t.pc.toNat = nnn.toNat ∧
        Frame { stack := [s.sp.val], sp := true } s t) ∧
    (s.sp = 16 → Raises (.call nnn) s .stackOverflow (0x2#4 ++ nnn))

/-- R120, R237: `00EE` decrements `sp` and jumps to the entry there, which keeps its value (D9); with `sp = 0` it raises
StackUnderflow, code 2. -/
def Obligations.ReturnPopsTheReturnAddress : Prop :=
  decode 0x00EE = .instr .ret ∧ FaultCode.num .stackUnderflow = 2 ∧
  ∀ s : State,
    (∀ h : 0 < s.sp.val, Completes .ret s fun t =>
      t.sp.val = s.sp.val - 1 ∧ t.pc = s.stack[s.sp.val - 1] ∧ Frame { sp := true } s t) ∧
    (s.sp = 0 → Raises .ret s .stackUnderflow 0x00EE)

/-- R123: `Bnnn` sets the pc to `nnn + V0`, not masked to 12 bits (D7). -/
def Obligations.JumpV0AddsV0 : Prop :=
  DecodesAs 0xF000 0xB000 (fun w => .jpV0 w.nnn) ∧
  ∀ (nnn : Addr12) (s : State), Completes (.jpV0 nnn) s fun t =>
    t.pc.toNat = nnn.toNat + (s.reg 0).toNat ∧ Frame {} s t

/-- R124, R125: `3xkk` skips exactly when `V[x] = kk`, `4xkk` exactly when not. -/
def Obligations.SkipsOnAnImmediate : Prop :=
  DecodesAs 0xF000 0x3000 (fun w => .seImm w.x w.kk) ∧ DecodesAs 0xF000 0x4000 (fun w => .sneImm w.x w.kk) ∧
  ∀ (x : Reg) (kk : Byte) (s : State),
    (Completes (.seImm x kk) s fun t => t.pc = (if s.reg x = kk then s.pc + 4 else s.pc + 2) ∧ Frame {} s t) ∧
    (Completes (.sneImm x kk) s fun t => t.pc = (if s.reg x = kk then s.pc + 2 else s.pc + 4) ∧ Frame {} s t)

/-- R126, R127: `5xy0` skips exactly when `V[x] = V[y]`, `9xy0` exactly when not; the other words of families 5 and 9 are
unknown. -/
def Obligations.SkipsOnRegisters : Prop :=
  DecodesAs 0xF00F 0x5000 (fun w => .seReg w.x w.y) ∧ DecodesAs 0xF00F 0x9000 (fun w => .sneReg w.x w.y) ∧
  (∀ w : Word, w.n ≠ 0 → (w.op = 5 ∨ w.op = 9) → decode w = .unknown w) ∧
  ∀ (x y : Reg) (s : State),
    (Completes (.seReg x y) s fun t => t.pc = (if s.reg x = s.reg y then s.pc + 4 else s.pc + 2) ∧ Frame {} s t) ∧
    (Completes (.sneReg x y) s fun t => t.pc = (if s.reg x = s.reg y then s.pc + 2 else s.pc + 4) ∧ Frame {} s t)

/-- R128 (log 15): a call at `p` with `sp < 16`, and then the `00EE` at its target, end with `pc = p + 2` and `sp` as
before; the one other write is `stack[sp] = p + 2`, the two ticks and the cleared `frame_dirty` apart. -/
def Obligations.CallThenReturnComesBack : Prop :=
  ∀ (s : State) (nnn : Addr12), s.Fetches (.call nnn) → (h : s.sp.val < 16) → nnn.toNat + 1 ≤ 0xFFF →
    Word.ofBytes (s.mem.read nnn.toNat) (s.mem.read (nnn.toNat + 1)) = 0x00EE →
    ∃ t u, step s = .next t ∧ step t = .next u ∧ u.pc = s.pc + 2 ∧
      u = { s with
        pc := s.pc + 2, stack := s.stack.set s.sp.val (s.pc + 2) h, frameDirty := false,
        dt := ticked (ticked s.dt), st := ticked (ticked s.st), draws := u.draws }

/-! ## Registers and arithmetic (42_alu.md) -/

/-- R141: `6xkk` sets `V[x]` to `kk`. -/
def Obligations.LoadImmediateSetsTheRegister : Prop :=
  DecodesAs 0xF000 0x6000 (fun w => .ldImm w.x w.kk) ∧
  ∀ (x : Reg) (kk : Byte) (s : State), Completes (.ldImm x kk) s fun t =>
    t.reg x = kk ∧ t.pc = s.pc + 2 ∧ Frame { regs := [x] } s t

/-- R142: `7xkk` adds `kk` to `V[x]` modulo 256 and touches no flag. -/
def Obligations.AddImmediateWrapsWithoutFlag : Prop :=
  DecodesAs 0xF000 0x7000 (fun w => .addImm w.x w.kk) ∧
  ∀ (x : Reg) (kk : Byte) (s : State), Completes (.addImm x kk) s fun t =>
    (t.reg x).toNat = ((s.reg x).toNat + kk.toNat) % 256 ∧ t.pc = s.pc + 2 ∧ Frame { regs := [x] } s t

/-- R143: `8xy0` copies `V[y]` to `V[x]`. -/
def Obligations.CopySetsTheRegister : Prop :=
  DecodesAs 0xF00F 0x8000 (fun w => .ldReg w.x w.y) ∧
  ∀ (x y : Reg) (s : State), Completes (.ldReg x y) s fun t =>
    t.reg x = s.reg y ∧ t.pc = s.pc + 2 ∧ Frame { regs := [x] } s t

/-- R144, R145, R146: OR, AND and XOR, bit by bit; with LOGIC_CLEARS_VF they write 0 to `VF` last, so that `x = 15`
leaves 0 (R11, D10; log 11), without it they write `V[x]` alone (D11). -/
def Obligations.LogicOpsActBitwise : Prop :=
  DecodesAs 0xF00F 0x8001 (fun w => .orReg w.x w.y) ∧ DecodesAs 0xF00F 0x8002 (fun w => .andReg w.x w.y) ∧
  DecodesAs 0xF00F 0x8003 (fun w => .xorReg w.x w.y) ∧
  ∀ (x y : Reg) (s : State) (i : Instr) (op : Bool → Bool → Bool),
    (i = .orReg x y ∧ op = or) ∨ (i = .andReg x y ∧ op = and) ∨ (i = .xorReg x y ∧ op = Bool.xor) →
    Completes i s fun t =>
      (x ≠ VF ∨ s.cfg.logicClearsVF = false →
        ∀ b < 8, (t.reg x).getLsbD b = op ((s.reg x).getLsbD b) ((s.reg y).getLsbD b)) ∧
      (s.cfg.logicClearsVF = true → t.reg VF = 0) ∧ t.pc = s.pc + 2 ∧
      Frame { regs := if s.cfg.logicClearsVF then [x, VF] else [x] } s t

/-- R147: `8xy4` leaves the carry in `VF` and, for `x` other than 15, the sum modulo 256 in `V[x]`; with `x = 15` the flag,
written last (D10), is what stays. -/
def Obligations.AddSetsTheCarry : Prop :=
  DecodesAs 0xF00F 0x8004 (fun w => .addReg w.x w.y) ∧
  ∀ (x y : Reg) (s : State), Completes (.addReg x y) s fun t =>
    (x ≠ VF → (t.reg x).toNat = ((s.reg x).toNat + (s.reg y).toNat) % 256) ∧
    t.reg VF = (if (s.reg x).toNat + (s.reg y).toNat > 255 then 1 else 0) ∧
    t.pc = s.pc + 2 ∧ Frame { regs := [x, VF] } s t

/-- R148, R150 (D12): `8xy5` is `V[x] - V[y]` and `8xy7` is `V[y] - V[x]`, modulo 256, with `VF` 1 exactly when the
minuend is strictly greater; with `x = 15` the flag stays (D10). -/
def Obligations.SubtractsSetNotBorrow : Prop :=
  DecodesAs 0xF00F 0x8005 (fun w => .subReg w.x w.y) ∧ DecodesAs 0xF00F 0x8007 (fun w => .subnReg w.x w.y) ∧
  ∀ (x y : Reg) (s : State),
    (Completes (.subReg x y) s fun t =>
      (x ≠ VF → (t.reg x).toNat = ((s.reg x).toNat + 256 - (s.reg y).toNat) % 256) ∧
      t.reg VF = (if (s.reg x).toNat > (s.reg y).toNat then 1 else 0) ∧
      t.pc = s.pc + 2 ∧ Frame { regs := [x, VF] } s t) ∧
    (Completes (.subnReg x y) s fun t =>
      (x ≠ VF → (t.reg x).toNat = ((s.reg y).toNat + 256 - (s.reg x).toNat) % 256) ∧
      t.reg VF = (if (s.reg y).toNat > (s.reg x).toNat then 1 else 0) ∧
      t.pc = s.pc + 2 ∧ Frame { regs := [x, VF] } s t)

/-- R149, R151: `8xy6` halves and `8xyE` doubles its source modulo 256, `VF` is the bit shifted out; the source is `V[y]`
with SHIFT_READS_VY and `V[x]` without (D13); with `x = 15` the flag stays (D10). -/
def Obligations.ShiftsMoveOneBitIntoVF : Prop :=
  DecodesAs 0xF00F 0x8006 (fun w => .shr w.x w.y) ∧ DecodesAs 0xF00F 0x800E (fun w => .shl w.x w.y) ∧
  ∀ (x y : Reg) (s : State),
    let src := if s.cfg.shiftReadsVy then s.reg y else s.reg x
    (Completes (.shr x y) s fun t =>
      (x ≠ VF → (t.reg x).toNat = src.toNat / 2) ∧ (t.reg VF).toNat = src.toNat % 2 ∧
      t.pc = s.pc + 2 ∧ Frame { regs := [x, VF] } s t) ∧
    (Completes (.shl x y) s fun t =>
      (x ≠ VF → (t.reg x).toNat = src.toNat * 2 % 256) ∧ (t.reg VF).toNat = src.toNat / 128 ∧
      t.pc = s.pc + 2 ∧ Frame { regs := [x, VF] } s t)

/-- R152, R254: `Cxkk` sets `V[x]` to `rnd & kk`: with an injected byte `b` that is `b & kk`; without one it is a free
byte, so no bit outside `kk` is set and `kk = 0` gives 0 whatever it is (log 2). -/
def Obligations.RandomByteIsMasked : Prop :=
  DecodesAs 0xF000 0xC000 (fun w => .rnd w.x w.kk) ∧
  ∀ (x : Reg) (kk : Byte) (s : State), Completes (.rnd x kk) s fun t =>
    (∀ b, s.rnd = some b → t.reg x = b &&& kk) ∧
    (s.rnd = none → t.reg x = Config.freeRnd s.draws &&& kk) ∧
    t.pc = s.pc + 2 ∧ Frame { regs := [x] } s t

/-- R154: the flag laws of family 8 for `x` other than 15. -/
def Obligations.FlagsBalanceTheArithmetic : Prop :=
  ∀ (x y : Reg) (s : State), x ≠ VF →
    (Completes (.addReg x y) s fun t =>
      (t.reg x).toNat + 256 * (t.reg VF).toNat = (s.reg x).toNat + (s.reg y).toNat) ∧
    (Completes (.subReg x y) s fun t =>
      if s.reg x = s.reg y then t.reg x = 0
      else (t.reg x).toNat + (s.reg y).toNat = (s.reg x).toNat + 256 * (1 - (t.reg VF).toNat)) ∧
    (Completes (.subnReg x y) s fun t =>
      if s.reg x = s.reg y then t.reg x = 0
      else (t.reg x).toNat + (s.reg x).toNat = (s.reg y).toNat + 256 * (1 - (t.reg VF).toNat))

/-- R153: `7xkk` and then `256 - kk` executions of `7x01` give `V[x]` back; every other register is as it was all along.
The states of `trace` are those the executions pass through. -/
def Obligations.AddImmediateWrapsRound : Prop :=
  ∀ (x : Reg) (kk : Byte) (s : State), ∃ trace : Nat → State,
    exec (.addImm x kk) s = .next (trace 0) ∧
    (∀ n < 256 - kk.toNat, exec (.addImm x 1) (trace n) = .next (trace (n + 1))) ∧
    (trace (256 - kk.toNat)).reg x = s.reg x ∧
    ∀ n ≤ 256 - kk.toNat, ∀ r : Reg, r ≠ x → (trace n).reg r = s.reg r

/-! ## The index register and memory (43_index_memory.md) -/

/-- R170: `Annn` sets `I` to `nnn`. -/
def Obligations.LoadIndexSetsI : Prop :=
  DecodesAs 0xF000 0xA000 (fun w => .ldI w.nnn) ∧
  ∀ (nnn : Addr12) (s : State), Completes (.ldI nnn) s fun t =>
    t.i.toNat = nnn.toNat ∧ t.pc = s.pc + 2 ∧ Frame { i := true } s t

/-- R171 (D8): `Fx1E` adds `V[x]` to `I` modulo 2^16 and touches no register. -/
def Obligations.AddIndexWrapsAtSixteenBits : Prop :=
  DecodesAs 0xF0FF 0xF01E (fun w => .addI w.x) ∧
  ∀ (x : Reg) (s : State), Completes (.addI x) s fun t =>
    t.i.toNat = (s.i.toNat + (s.reg x).toNat) % 65536 ∧ t.pc = s.pc + 2 ∧ Frame { i := true } s t

/-- R172 (D15): `Fx29` sets `I` to `5 * V[x]`, not masked; for `V[x]` up to 15 that is where glyph `V[x]` of the font set
stands at construction (R31; the glyph's bytes are the default FONT, log 6). -/
def Obligations.GlyphAddressIsFiveTimesTheRegister : Prop :=
  DecodesAs 0xF0FF 0xF029 (fun w => .ldF w.x) ∧
  (∀ (x : Reg) (s : State), Completes (.ldF x) s fun t =>
    t.i.toNat = 5 * (s.reg x).toNat ∧ t.pc = s.pc + 2 ∧ Frame { i := true } s t) ∧
  (∀ g j : Nat, g < 16 → j < 5 → font[5 * g + j]? = some (State.reset.mem.read (5 * g + j)))

/-- `Fx33` stores hundreds, tens and ones at `I`, `I + 1`, `I + 2` (the pseudocode of R173), and no other byte changes. That
the bytes above 0xFFF are dropped one by one is R55 with D32, and that the addresses never wrap is R53 with D8 (log 14).
Memory is in its canonical form, the model's own representation (log 7), kept by every step and reset's form. -/
def Obligations.DecimalDigitsAreStored : Prop :=
  DecodesAs 0xF0FF 0xF033 (fun w => .ldB w.x) ∧
  ∀ (x : Reg) (s : State), s.MemCanonical → Completes (.ldB x) s fun t =>
    (s.ea 0 ≤ 0xFFF → (t.mem.read (s.ea 0)).toNat = (s.reg x).toNat / 100) ∧
    (s.ea 1 ≤ 0xFFF → (t.mem.read (s.ea 1)).toNat = (s.reg x).toNat / 10 % 10) ∧
    (s.ea 2 ≤ 0xFFF → (t.mem.read (s.ea 2)).toNat = (s.reg x).toNat % 10) ∧
    t.pc = s.pc + 2 ∧ Frame { mem := [s.ea 0, s.ea 1, s.ea 2].filter (· ≤ 0xFFF) } s t

/-- R174, R55 (D32): `Fx55` stores `V[k]` at `I + k` for every `k` up to `x` whose address exists, changes no other byte,
and adds `x + 1` to `I` exactly when LOADSTORE_ADVANCES_I (D14). -/
def Obligations.RegistersAreStored : Prop :=
  DecodesAs 0xF0FF 0xF055 (fun w => .store w.x) ∧
  ∀ (x : Reg) (s : State), s.MemCanonical → Completes (.store x) s fun t =>
    (∀ k : Reg, k ≤ x → s.ea k.val ≤ 0xFFF → t.mem.read (s.ea k.val) = s.reg k) ∧
    t.i = (if s.cfg.loadStoreAdvancesI then s.i + BitVec.ofNat 16 (x.val + 1) else s.i) ∧ t.pc = s.pc + 2 ∧
    Frame { mem := ((List.range (x.val + 1)).map s.ea).filter (· ≤ 0xFFF), i := true } s t

/-- R175, R239: `Fx65` loads `V[k]` from `I + k` for every `k` up to `x` and no other register, and adds `x + 1` to `I`
exactly when LOADSTORE_ADVANCES_I (D14). When `I + x > 0xFFF` it raises DataReadOutOfRange, code 4, under OOB_READ_POLICY =
fault (D6); under `any` it completes too, and the bytes that exist are loaded as they are. -/
def Obligations.RegistersAreLoaded : Prop :=
  DecodesAs 0xF0FF 0xF065 (fun w => .load w.x) ∧ FaultCode.num .dataReadOutOfRange = 4 ∧
  ∀ (x : Reg) (s : State),
    (s.ea x.val ≤ 0xFFF ∨ s.cfg.oobRead = .any → Completes (.load x) s fun t =>
      (∀ k : Reg, k ≤ x → s.ea k.val ≤ 0xFFF → t.reg k = s.mem.read (s.ea k.val)) ∧
      t.i = (if s.cfg.loadStoreAdvancesI then s.i + BitVec.ofNat 16 (x.val + 1) else s.i) ∧ t.pc = s.pc + 2 ∧
      Frame { regs := (List.finRange 16).filter (· ≤ x), i := true } s t) ∧
    (0xFFF < s.ea x.val → s.cfg.oobRead = .fault → Raises (.load x) s .dataReadOutOfRange (encode (.load x)))

/-- R56, R63: what `Fx55` stores is what a later fetch reads: with `V0` and `V1` stored at the address of the next
instruction, the next word fetched is `V0 ++ V1`. -/
def Obligations.StoredBytesAreFetchedNext : Prop :=
  ∀ (x : Reg) (s t : State), s.MemCanonical → 1 ≤ x.val → s.i = s.pc + 2 → s.ea 1 ≤ 0xFFF →
    exec (.store x) s = .next t → t.FetchInRange ∧ t.wordAtPc = s.reg 0 ++ s.reg 1

/-! ## Display (44_display.md) -/

/-- R190 (D18): `00E0` clears every pixel and sets `frame_dirty`, whatever the framebuffer held. -/
def Obligations.ClearScreenClearsEveryPixel : Prop :=
  decode 0x00E0 = .instr .cls ∧
  ∀ s : State, Completes .cls s fun t =>
    (∀ (py : Fin 32) (px : Fin 64), t.fb.pixel py px = false) ∧ t.frameDirty = true ∧ t.pc = s.pc + 2 ∧
    Frame { display := true } s t

/-- R191, R192 (D16, D17, D18): with its rows readable, `Dxyn` XORs onto each pixel the sprite bit that falls on it (wrapped
on both axes, bit 7 leftmost), sets `VF` to 1 exactly when some pixel went from 1 to 0, and sets `frame_dirty`. The
coordinates and `I` are those before the instruction, `x = 15` and `y = 15` included. -/
def Obligations.DrawXorsTheSprite : Prop :=
  DecodesAs 0xF000 0xD000 (fun w => .drw w.x w.y w.n) ∧
  ∀ (x y : Reg) (n : Nibble) (s : State), (n.toNat = 0 ∨ s.ea (n.toNat - 1) ≤ 0xFFF) →
    let rows := (List.range n.toNat).map fun r => s.mem.read (s.ea r)
    let bit := spriteBit rows (s.reg x) (s.reg y)
    Completes (.drw x y n) s fun t =>
      (∀ py px, t.fb.pixel py px = (s.fb.pixel py px ^^ bit py px)) ∧
      t.reg VF = (if ∃ py px, s.fb.pixel py px = true ∧ t.fb.pixel py px = false then 1 else 0) ∧
      t.frameDirty = true ∧ t.pc = s.pc + 2 ∧ Frame { regs := [VF], display := true } s t

/-- R191, R239, R233 (D6): when a row of `Dxyn` lies above 0xFFF, OOB_READ_POLICY = fault raises DataReadOutOfRange before
any write; under `any` the instruction completes, draws something, and still writes nothing but `VF` and the display. -/
def Obligations.DrawBeyondMemory : Prop :=
  ∀ (x y : Reg) (n : Nibble) (s : State), 0 < n.toNat → 0xFFF < s.ea (n.toNat - 1) →
    (s.cfg.oobRead = .fault → Raises (.drw x y n) s .dataReadOutOfRange (encode (.drw x y n))) ∧
    (s.cfg.oobRead = .any → ∃ rows : List Byte, rows.length = n.toNat ∧
      (∀ r < n.toNat, s.ea r ≤ 0xFFF → rows[r]? = some (s.mem.read (s.ea r))) ∧
      Completes (.drw x y n) s fun t =>
        (∀ py px, t.fb.pixel py px = (s.fb.pixel py px ^^ spriteBit rows (s.reg x) (s.reg y) py px)) ∧
        t.reg VF = (if ∃ py px, s.fb.pixel py px = true ∧ t.fb.pixel py px = false then 1 else 0) ∧
        t.frameDirty = true ∧ t.pc = s.pc + 2 ∧ Frame { regs := [VF], display := true } s t)

/-- R193: drawing the same sprite twice at the same place, with `x` and `y` other than 15, restores the framebuffer, and
the second draw's `VF` is 1 exactly when the first turned a pixel from 0 to 1. -/
def Obligations.DrawingTwiceRestoresTheScreen : Prop :=
  ∀ (x y : Reg) (n : Nibble) (s t t' u : State), x ≠ VF → y ≠ VF → (n.toNat = 0 ∨ s.ea (n.toNat - 1) ≤ 0xFFF) →
    exec (.drw x y n) s = .next t →
    t'.fb = t.fb → t'.i = s.i → t'.reg x = s.reg x → t'.reg y = s.reg y →
    (∀ r < n.toNat, t'.mem.read (s.ea r) = s.mem.read (s.ea r)) →
    exec (.drw x y n) t' = .next u →
    u.fb = s.fb ∧
    u.reg VF = (if ∃ py px, s.fb.pixel py px = false ∧ t.fb.pixel py px = true then 1 else 0)

/-! ## Keypad and timers (45_timers_input.md) -/

/-- R210, R211, R216, R240: for `V[x]` up to 15, `Ex9E` skips exactly when key `V[x]` is pressed and `ExA1` exactly when
not; above 15, KEY_INDEX_POLICY = fault raises KeyIndexOutOfRange, code 5 (D19), and `any` goes on to one of the two
targets. -/
def Obligations.KeySkipsTestTheKey : Prop :=
  DecodesAs 0xF0FF 0xE09E (fun w => .skp w.x) ∧ DecodesAs 0xF0FF 0xE0A1 (fun w => .sknp w.x) ∧
  FaultCode.num .keyIndexOutOfRange = 5 ∧
  ∀ (x : Reg) (s : State),
    (∀ h : (s.reg x).toNat < 16,
      (Completes (.skp x) s fun t =>
        t.pc = (if s.key[(s.reg x).toNat] = true then s.pc + 4 else s.pc + 2) ∧ Frame {} s t) ∧
      (Completes (.sknp x) s fun t =>
        t.pc = (if s.key[(s.reg x).toNat] = true then s.pc + 2 else s.pc + 4) ∧ Frame {} s t)) ∧
    (15 < (s.reg x).toNat → s.cfg.keyIndex = .fault →
      Raises (.skp x) s .keyIndexOutOfRange (encode (.skp x)) ∧
      Raises (.sknp x) s .keyIndexOutOfRange (encode (.sknp x))) ∧
    (15 < (s.reg x).toNat → s.cfg.keyIndex = .any →
      ∀ i, i = .skp x ∨ i = .sknp x → Completes i s fun t =>
        (t.pc = s.pc + 2 ∨ t.pc = s.pc + 4) ∧ Frame {} s t)

/-- R212: `Fx07` sets `V[x]` to `DT`, and over a whole cycle that is the delay timer already ticked by this cycle. -/
def Obligations.DelayTimerReadIsTicked : Prop :=
  DecodesAs 0xF0FF 0xF007 (fun w => .ldVxDT w.x) ∧
  (∀ (x : Reg) (s : State), Completes (.ldVxDT x) s fun t =>
    t.reg x = s.dt ∧ t.pc = s.pc + 2 ∧ Frame { regs := [x] } s t) ∧
  (∀ (x : Reg) (s : State), s.Fetches (.ldVxDT x) →
    ∃ t, step s = .next t ∧ (t.reg x).toNat = s.dt.toNat - 1 ∧ t.dt.toNat = s.dt.toNat - 1)

/-- `Fx15` sets `DT` (R213) and `Fx18` sets `ST` (R214) to `V[x]`. Over a whole cycle the tick comes first, so the written
timer ends at `V[x]` and the other one has ticked: that follows from the order of R100 and the tick of R245 (log 25). -/
def Obligations.TimerWritesSetTheTimer : Prop :=
  DecodesAs 0xF0FF 0xF015 (fun w => .ldDTVx w.x) ∧ DecodesAs 0xF0FF 0xF018 (fun w => .ldSTVx w.x) ∧
  ∀ (x : Reg) (s : State),
    (Completes (.ldDTVx x) s fun t => t.dt = s.reg x ∧ t.pc = s.pc + 2 ∧ Frame { dt := true } s t) ∧
    (Completes (.ldSTVx x) s fun t => t.st = s.reg x ∧ t.pc = s.pc + 2 ∧ Frame { st := true } s t) ∧
    (s.Fetches (.ldDTVx x) → ∃ t, step s = .next t ∧ t.dt = s.reg x ∧ t.st.toNat = s.st.toNat - 1) ∧
    (s.Fetches (.ldSTVx x) → ∃ t, step s = .next t ∧ t.st = s.reg x ∧ t.dt.toNat = s.dt.toNat - 1)

/-- R215 (D5): `Fx0A` sets the latch for `x` and moves the pc past itself; no register changes, whatever keys are down. -/
def Obligations.KeyWaitSetsTheLatch : Prop :=
  DecodesAs 0xF0FF 0xF00A (fun w => .ldVxK w.x) ∧
  ∀ (x : Reg) (s : State), Completes (.ldVxK x) s fun t =>
    t.inputWait = some x ∧ t.pc = s.pc + 2 ∧ Frame { inputWait := true } s t

/-! ## Construction, the loader, the outputs -/

/-- R271: the state after construction. The font's bytes are the default FONT (log 6). -/
def Obligations.ConstructionState : Prop :=
  let s := State.reset
  (∀ x : Reg, s.reg x = 0) ∧ s.i = 0 ∧ s.pc = 0x200 ∧ (∀ (n : Nat) (h : n < 16), s.stack[n] = 0) ∧ s.sp = 0 ∧
  s.dt = 0 ∧ s.st = 0 ∧ (∀ py px, s.fb.pixel py px = false) ∧ s.frameDirty = false ∧
  (∀ k : Fin 16, s.key[k.val] = false) ∧ s.inputWait = none ∧ s.fault = none ∧
  (∀ a : Nat, a < 80 → font[a]? = some (s.mem.read a)) ∧ (∀ a : Nat, 80 ≤ a → s.mem.read a = 0)

/-- R275: the loader places byte `n` of an image at `0x200 + n`, drops the bytes from 3584 on, and changes nothing else; an
image of any length. -/
def Obligations.LoaderPlacesTheImage : Prop :=
  ∀ (image : List Byte) (s : State), s.MemCanonical →
    let t := s.loadImage image
    t = { s with mem := t.mem } ∧
    (∀ n : Nat, n < 3584 → ∀ b, image[n]? = some b → t.mem.read (0x200 + n) = b) ∧
    (∀ a : Nat, (a < 0x200 ∨ 0x200 + image.length ≤ a ∨ 0x1000 ≤ a) → t.mem.read a = s.mem.read a)

/-- R271, 00_scope.md R7: construction with any 80 font bytes places them at 0x000 to 0x04F, leaves 0 above, and with the
defaults it is the reset state. That its memory is in canonical form is a clause about the model's own representation, no
rule of the spec (log 7); the default font bytes are log 6, the parameters in the state log 1. -/
def Obligations.ConstructionPlacesTheFont : Prop :=
  State.construct Config.default font = State.reset ∧
  ∀ (cfg : Config) (fontBytes : List Byte), fontBytes.length = 80 →
    let s := State.construct cfg fontBytes
    s = { State.reset with mem := s.mem, cfg := cfg } ∧ s.MemCanonical ∧
    (∀ a : Nat, a < 80 → fontBytes[a]? = some (s.mem.read a)) ∧ (∀ a : Nat, 80 ≤ a → s.mem.read a = 0)

/-- R250, R253, R214: the tone output is on exactly while `ST > 0`: after `Fx18` with `V[x] = b` in a Running cycle it is
on exactly when `b > 0`; the other outputs are the state's own. -/
def Obligations.ToneFollowsTheSoundTimer : Prop :=
  ∀ (x : Reg) (s : State), s.Fetches (.ldSTVx x) →
    ∃ t, step s = .next t ∧ (t.outputs.tone = true ↔ 0 < (s.reg x).toNat) ∧
      t.outputs.fb = t.fb ∧ t.outputs.frameDirty = t.frameDirty ∧ t.outputs.fault = t.fault ∧
      (t.outputs.awaitingInput = true ↔ t.inputWait ≠ none)

/-! ## Invariants -/

/-- The construction state meets both invariants; the canonical form is the model's own representation (log 7). -/
def Obligations.ConstructionMeetsTheInvariants : Prop := State.reset.MemCanonical ∧ State.reset.PcBounded

/-- 20_memory.md R50, R55 (log 7): every step keeps memory in its canonical form: addresses strictly rising inside the
4096-byte array, and no entry equal to what its address reads as when unlisted. -/
def Obligations.StepKeepsMemoryCanonical : Prop :=
  ∀ s t : State, s.MemCanonical → step s = .next t → t.MemCanonical

/-- 40_cycle.md R107 (D7): under OOB_READ_POLICY = fault every step keeps the pc at most 0x10FE and every stack entry at
most 0x1000. -/
def Obligations.StepKeepsThePcBounded : Prop :=
  ∀ s t : State, s.PcBounded → step s = .next t → t.PcBounded
end

