-- ==== Sys2Proof/Laws/Fields.lean ====
section
/-! SUPPORT. The fields of a word as numbers, the fields of an encoded word, and the opcode map read field by field. -/

namespace Sys2Proof

theorem toNat_append_mul {n m : Nat} (a : BitVec n) (b : BitVec m) : (a ++ b).toNat = a.toNat * 2 ^ m + b.toNat := by
  rw [BitVec.toNat_append, ← Nat.shiftLeft_add_eq_or_of_lt b.isLt, Nat.shiftLeft_eq]

/-! ## Fields as numbers -/

theorem Word.op_toNat (w : Word) : w.op.toNat = w.toNat / 4096 := by
  have := w.isLt
  simp only [Word.op, BitVec.extractLsb'_toNat, Nat.shiftRight_eq_div_pow]; omega

theorem Word.xNibble_toNat (w : Word) : w.xNibble.toNat = w.toNat / 256 % 16 := by
  simp only [Word.xNibble, BitVec.extractLsb'_toNat, Nat.shiftRight_eq_div_pow]

theorem Word.yNibble_toNat (w : Word) : w.yNibble.toNat = w.toNat / 16 % 16 := by
  simp only [Word.yNibble, BitVec.extractLsb'_toNat, Nat.shiftRight_eq_div_pow]

theorem Word.n_toNat (w : Word) : w.n.toNat = w.toNat % 16 := by
  simp only [Word.n, BitVec.extractLsb'_toNat, Nat.shiftRight_eq_div_pow]; omega

theorem Word.kk_toNat (w : Word) : w.kk.toNat = w.toNat % 256 := by
  simp only [Word.kk, BitVec.extractLsb'_toNat, Nat.shiftRight_eq_div_pow]; omega

theorem Word.nnn_toNat (w : Word) : w.nnn.toNat = w.toNat % 4096 := by
  simp only [Word.nnn, BitVec.extractLsb'_toNat, Nat.shiftRight_eq_div_pow]; omega

theorem Word.x_val (w : Word) : w.x.val = w.toNat / 256 % 16 := w.xNibble_toNat

theorem Word.y_val (w : Word) : w.y.val = w.toNat / 16 % 16 := w.yNibble_toNat

/-! ## Encoded words as numbers -/

theorem encNNN_toNat (op : Nibble) (a : Addr12) : (encNNN op a).toNat = op.toNat * 4096 + a.toNat :=
  toNat_append_mul op a

theorem encXKK_toNat (op : Nibble) (x : Reg) (kk : Byte) :
    (encXKK op x kk).toNat = op.toNat * 4096 + x.val * 256 + kk.toNat := by
  refine (toNat_append_mul op (Reg.nibble x ++ kk)).trans ?_
  rw [toNat_append_mul, Nat.add_assoc]; rfl

theorem encXYN_toNat (op : Nibble) (x y : Reg) (n : Nibble) :
    (encXYN op x y n).toNat = op.toNat * 4096 + x.val * 256 + y.val * 16 + n.toNat := by
  refine (toNat_append_mul op (Reg.nibble x ++ (Reg.nibble y ++ n))).trans ?_
  rw [toNat_append_mul, toNat_append_mul]
  change _ + (x.val * 256 + (y.val * 16 + _)) = _
  omega

/-! ## The fields of an encoded word -/

@[simp] theorem encNNN_op (op : Nibble) (a : Addr12) : (encNNN op a).op = op := by
  apply BitVec.eq_of_toNat_eq; rw [Word.op_toNat, encNNN_toNat]; have := a.isLt; omega

@[simp] theorem encNNN_nnn (op : Nibble) (a : Addr12) : (encNNN op a).nnn = a := by
  apply BitVec.eq_of_toNat_eq; rw [Word.nnn_toNat, encNNN_toNat]; have := a.isLt; omega

@[simp] theorem encXKK_op (op : Nibble) (x : Reg) (kk : Byte) : (encXKK op x kk).op = op := by
  apply BitVec.eq_of_toNat_eq; rw [Word.op_toNat, encXKK_toNat]; have := x.isLt; have := kk.isLt; omega

@[simp] theorem encXKK_x (op : Nibble) (x : Reg) (kk : Byte) : (encXKK op x kk).x = x := by
  apply Fin.ext; rw [Word.x_val, encXKK_toNat]; have := x.isLt; have := kk.isLt; omega

@[simp] theorem encXKK_kk (op : Nibble) (x : Reg) (kk : Byte) : (encXKK op x kk).kk = kk := by
  apply BitVec.eq_of_toNat_eq; rw [Word.kk_toNat, encXKK_toNat]; have := kk.isLt; omega

@[simp] theorem encXYN_op (op : Nibble) (x y : Reg) (n : Nibble) : (encXYN op x y n).op = op := by
  apply BitVec.eq_of_toNat_eq; rw [Word.op_toNat, encXYN_toNat]
  have := x.isLt; have := y.isLt; have := n.isLt; omega

@[simp] theorem encXYN_x (op : Nibble) (x y : Reg) (n : Nibble) : (encXYN op x y n).x = x := by
  apply Fin.ext; rw [Word.x_val, encXYN_toNat]; have := x.isLt; have := y.isLt; have := n.isLt; omega

@[simp] theorem encXYN_y (op : Nibble) (x y : Reg) (n : Nibble) : (encXYN op x y n).y = y := by
  apply Fin.ext; rw [Word.y_val, encXYN_toNat]; have := x.isLt; have := y.isLt; have := n.isLt; omega

@[simp] theorem encXYN_n (op : Nibble) (x y : Reg) (n : Nibble) : (encXYN op x y n).n = n := by
  apply BitVec.eq_of_toNat_eq; rw [Word.n_toNat, encXYN_toNat]; have := n.isLt; omega

/-! ## A word put together from its fields -/

theorem encNNN_fields (w : Word) : encNNN w.op w.nnn = w := by
  apply BitVec.eq_of_toNat_eq; rw [encNNN_toNat, Word.op_toNat, Word.nnn_toNat]; omega

theorem encXKK_fields (w : Word) : encXKK w.op w.x w.kk = w := by
  apply BitVec.eq_of_toNat_eq; rw [encXKK_toNat, Word.op_toNat, Word.x_val, Word.kk_toNat]; omega

theorem encXYN_fields (w : Word) : encXYN w.op w.x w.y w.n = w := by
  apply BitVec.eq_of_toNat_eq; rw [encXYN_toNat, Word.op_toNat, Word.x_val, Word.y_val, Word.n_toNat]; omega

/-- Two words with the same four nibbles are the same word. -/
theorem Word.ext_nibbles {w w' : Word} (ho : w.op = w'.op) (hx : w.xNibble = w'.xNibble)
    (hy : w.yNibble = w'.yNibble) (hn : w.n = w'.n) : w = w' := by
  have ex : w.x = w'.x := congrArg BitVec.toFin hx
  have ey : w.y = w'.y := congrArg BitVec.toFin hy
  rw [← encXYN_fields w, ← encXYN_fields w', ho, ex, ey, hn]

/-- Two words with the same `op`, `x` nibble and `kk` are the same word. -/
theorem Word.ext_xkk {w w' : Word} (ho : w.op = w'.op) (hx : w.xNibble = w'.xNibble) (hk : w.kk = w'.kk) : w = w' := by
  have ex : w.x = w'.x := congrArg BitVec.toFin hx
  rw [← encXKK_fields w, ← encXKK_fields w', ho, ex, hk]

/-- The bytes of a word, put back together. -/
theorem Word.ofBytes_bytes (w : Word) : Word.ofBytes w.hiByte w.loByte = w := by
  apply BitVec.eq_of_toNat_eq
  refine (toNat_append_mul w.hiByte w.loByte).trans ?_
  have := w.isLt
  simp only [Word.hiByte, Word.loByte, BitVec.extractLsb'_toNat, Nat.shiftRight_eq_div_pow]; omega

/-! ## The opcode map, field by field (30_encoding.md R80, R81) -/

theorem Word.op_and (w m : Word) : (w &&& m).op = w.op &&& m.op := BitVec.extractLsb'_and

theorem Word.xNibble_and (w m : Word) : (w &&& m).xNibble = w.xNibble &&& m.xNibble := BitVec.extractLsb'_and

theorem Word.yNibble_and (w m : Word) : (w &&& m).yNibble = w.yNibble &&& m.yNibble := BitVec.extractLsb'_and

theorem Word.n_and (w m : Word) : (w &&& m).n = w.n &&& m.n := BitVec.extractLsb'_and

theorem Word.kk_and (w m : Word) : (w &&& m).kk = w.kk &&& m.kk := BitVec.extractLsb'_and

theorem and_fifteen (a : Nibble) : a &&& 0xF#4 = a := BitVec.and_allOnes

theorem and_ff (a : Byte) : a &&& 0xFF#8 = a := BitVec.and_allOnes

/-- A row with mask 0xF000 is told by `op` alone. -/
theorem fits_op {w v : Word} (hv : v &&& 0xF000#16 = v) : w &&& 0xF000#16 = v ↔ w.op = v.op := by
  constructor
  · intro h
    rw [← h, Word.op_and]; exact (and_fifteen w.op).symm
  · intro h
    rw [← hv]
    apply Word.ext_nibbles <;>
      simp only [Word.op_and, Word.xNibble_and, Word.yNibble_and, Word.n_and, h] <;>
      exact BitVec.and_zero.trans BitVec.and_zero.symm

/-- A row with mask 0xF00F is told by `op` and `n`. -/
theorem fits_op_n {w v : Word} (hv : v &&& 0xF00F#16 = v) : w &&& 0xF00F#16 = v ↔ w.op = v.op ∧ w.n = v.n := by
  constructor
  · intro h
    rw [← h, Word.op_and, Word.n_and]; exact ⟨(and_fifteen w.op).symm, (and_fifteen w.n).symm⟩
  · rintro ⟨h, h'⟩
    rw [← hv]
    apply Word.ext_nibbles <;>
      simp only [Word.op_and, Word.xNibble_and, Word.yNibble_and, Word.n_and, h, h'] <;>
      exact BitVec.and_zero.trans BitVec.and_zero.symm

/-- A row with mask 0xF0FF is told by `op` and `kk`. -/
theorem fits_op_kk {w v : Word} (hv : v &&& 0xF0FF#16 = v) : w &&& 0xF0FF#16 = v ↔ w.op = v.op ∧ w.kk = v.kk := by
  constructor
  · intro h
    rw [← h, Word.op_and, Word.kk_and]; exact ⟨(and_fifteen w.op).symm, (and_ff w.kk).symm⟩
  · rintro ⟨h, h'⟩
    rw [← hv]
    apply Word.ext_xkk <;>
      simp only [Word.op_and, Word.xNibble_and, Word.kk_and, h, h']
    exact BitVec.and_zero.trans BitVec.and_zero.symm

/-- A row with mask 0xFFFF is one word. -/
theorem fits_word {w v : Word} : w &&& 0xFFFF#16 = v ↔ w = v := by
  rw [show w &&& 0xFFFF#16 = w from BitVec.and_allOnes]

end Sys2Proof
end

