-- ==== Sys2Proof/Laws/Decode.lean ====
section
/-! SUPPORT. The decoder family by family, so that no proof unfolds its whole chain of tests. -/

namespace Sys2Proof

/-- The sixteen values of a nibble. -/
theorem nibble_cases (a : Nibble) :
    a = 0x0#4 ∨ a = 0x1#4 ∨ a = 0x2#4 ∨ a = 0x3#4 ∨ a = 0x4#4 ∨ a = 0x5#4 ∨ a = 0x6#4 ∨ a = 0x7#4 ∨
    a = 0x8#4 ∨ a = 0x9#4 ∨ a = 0xA#4 ∨ a = 0xB#4 ∨ a = 0xC#4 ∨ a = 0xD#4 ∨ a = 0xE#4 ∨ a = 0xF#4 := by
  revert a; decide

theorem decode_op0 {w : Word} (h : w.op = 0x0#4) : decode w = decodeFamily0 w := by
  simp [decode, h]

theorem decode_op1 {w : Word} (h : w.op = 0x1#4) : decode w = .instr (.jp w.nnn) := by
  simp [decode, h]

theorem decode_op2 {w : Word} (h : w.op = 0x2#4) : decode w = .instr (.call w.nnn) := by
  simp [decode, h]

theorem decode_op3 {w : Word} (h : w.op = 0x3#4) : decode w = .instr (.seImm w.x w.kk) := by
  simp [decode, h]

theorem decode_op4 {w : Word} (h : w.op = 0x4#4) : decode w = .instr (.sneImm w.x w.kk) := by
  simp [decode, h]

theorem decode_op5 {w : Word} (h : w.op = 0x5#4) : decode w = if w.n = 0x0#4 then .instr (.seReg w.x w.y) else .unknown w := by
  simp [decode, h]

theorem decode_op6 {w : Word} (h : w.op = 0x6#4) : decode w = .instr (.ldImm w.x w.kk) := by
  simp [decode, h]

theorem decode_op7 {w : Word} (h : w.op = 0x7#4) : decode w = .instr (.addImm w.x w.kk) := by
  simp [decode, h]

theorem decode_op8 {w : Word} (h : w.op = 0x8#4) : decode w = decodeFamily8 w := by
  simp [decode, h]

theorem decode_op9 {w : Word} (h : w.op = 0x9#4) : decode w = if w.n = 0x0#4 then .instr (.sneReg w.x w.y) else .unknown w := by
  simp [decode, h]

theorem decode_opA {w : Word} (h : w.op = 0xA#4) : decode w = .instr (.ldI w.nnn) := by
  simp [decode, h]

theorem decode_opB {w : Word} (h : w.op = 0xB#4) : decode w = .instr (.jpV0 w.nnn) := by
  simp [decode, h]

theorem decode_opC {w : Word} (h : w.op = 0xC#4) : decode w = .instr (.rnd w.x w.kk) := by
  simp [decode, h]

theorem decode_opD {w : Word} (h : w.op = 0xD#4) : decode w = .instr (.drw w.x w.y w.n) := by
  simp [decode, h]

theorem decode_opE {w : Word} (h : w.op = 0xE#4) : decode w = decodeFamilyE w := by
  simp [decode, h]

theorem decode_opF {w : Word} (h : w.op = 0xF#4) : decode w = decodeFamilyF w := by
  simp [decode, h]

theorem decodeFamily8_n0 {w : Word} (h : w.n = 0x0#4) : decodeFamily8 w = .instr (.ldReg w.x w.y) := by
  simp [decodeFamily8, h]

theorem decodeFamily8_n1 {w : Word} (h : w.n = 0x1#4) : decodeFamily8 w = .instr (.orReg w.x w.y) := by
  simp [decodeFamily8, h]

theorem decodeFamily8_n2 {w : Word} (h : w.n = 0x2#4) : decodeFamily8 w = .instr (.andReg w.x w.y) := by
  simp [decodeFamily8, h]

theorem decodeFamily8_n3 {w : Word} (h : w.n = 0x3#4) : decodeFamily8 w = .instr (.xorReg w.x w.y) := by
  simp [decodeFamily8, h]

theorem decodeFamily8_n4 {w : Word} (h : w.n = 0x4#4) : decodeFamily8 w = .instr (.addReg w.x w.y) := by
  simp [decodeFamily8, h]

theorem decodeFamily8_n5 {w : Word} (h : w.n = 0x5#4) : decodeFamily8 w = .instr (.subReg w.x w.y) := by
  simp [decodeFamily8, h]

theorem decodeFamily8_n6 {w : Word} (h : w.n = 0x6#4) : decodeFamily8 w = .instr (.shr w.x w.y) := by
  simp [decodeFamily8, h]

theorem decodeFamily8_n7 {w : Word} (h : w.n = 0x7#4) : decodeFamily8 w = .instr (.subnReg w.x w.y) := by
  simp [decodeFamily8, h]

theorem decodeFamily8_n8 {w : Word} (h : w.n = 0x8#4) : decodeFamily8 w = .unknown w := by
  simp [decodeFamily8, h]

theorem decodeFamily8_n9 {w : Word} (h : w.n = 0x9#4) : decodeFamily8 w = .unknown w := by
  simp [decodeFamily8, h]

theorem decodeFamily8_nA {w : Word} (h : w.n = 0xA#4) : decodeFamily8 w = .unknown w := by
  simp [decodeFamily8, h]

theorem decodeFamily8_nB {w : Word} (h : w.n = 0xB#4) : decodeFamily8 w = .unknown w := by
  simp [decodeFamily8, h]

theorem decodeFamily8_nC {w : Word} (h : w.n = 0xC#4) : decodeFamily8 w = .unknown w := by
  simp [decodeFamily8, h]

theorem decodeFamily8_nD {w : Word} (h : w.n = 0xD#4) : decodeFamily8 w = .unknown w := by
  simp [decodeFamily8, h]

theorem decodeFamily8_nE {w : Word} (h : w.n = 0xE#4) : decodeFamily8 w = .instr (.shl w.x w.y) := by
  simp [decodeFamily8, h]

theorem decodeFamily8_nF {w : Word} (h : w.n = 0xF#4) : decodeFamily8 w = .unknown w := by
  simp [decodeFamily8, h]

end Sys2Proof
end

