-- ==== Sys2Proof/Laws/State.lean ====
section
/-! SUPPORT. One lemma per field per named update of State, and what the updates do to a register. -/

namespace Sys2Proof.Machine

/-! ## Registers -/

@[simp] theorem State.setReg_reg_self (s : State) (x : Reg) (b : Byte) : (s.setReg x b).reg x = b := by
  simp [State.setReg, State.reg]

theorem State.setReg_reg_ne (s : State) (x r : Reg) (b : Byte) (h : r ≠ x) : (s.setReg x b).reg r = s.reg r := by
  have : x.val ≠ r.val := fun e => h (Fin.ext e.symm)
  simp [State.setReg, State.reg, this]

theorem State.setReg_reg (s : State) (x r : Reg) (b : Byte) :
    (s.setReg x b).reg r = if r = x then b else s.reg r := by
  split
  · next h => subst h; simp
  · next h => exact State.setReg_reg_ne s x r b h

theorem State.reg_congr {s t : State} (h : t.v = s.v) (r : Reg) : t.reg r = s.reg r := by simp [State.reg, h]

/-! ## `setReg` -/
@[simp] theorem State.setReg_mem (s : State) (x : Reg) (b : Byte) : (s.setReg x b).mem = s.mem := rfl
@[simp] theorem State.setReg_i (s : State) (x : Reg) (b : Byte) : (s.setReg x b).i = s.i := rfl
@[simp] theorem State.setReg_pc (s : State) (x : Reg) (b : Byte) : (s.setReg x b).pc = s.pc := rfl
@[simp] theorem State.setReg_stack (s : State) (x : Reg) (b : Byte) : (s.setReg x b).stack = s.stack := rfl
@[simp] theorem State.setReg_sp (s : State) (x : Reg) (b : Byte) : (s.setReg x b).sp = s.sp := rfl
@[simp] theorem State.setReg_dt (s : State) (x : Reg) (b : Byte) : (s.setReg x b).dt = s.dt := rfl
@[simp] theorem State.setReg_st (s : State) (x : Reg) (b : Byte) : (s.setReg x b).st = s.st := rfl
@[simp] theorem State.setReg_fb (s : State) (x : Reg) (b : Byte) : (s.setReg x b).fb = s.fb := rfl
@[simp] theorem State.setReg_frameDirty (s : State) (x : Reg) (b : Byte) : (s.setReg x b).frameDirty = s.frameDirty := rfl
@[simp] theorem State.setReg_key (s : State) (x : Reg) (b : Byte) : (s.setReg x b).key = s.key := rfl
@[simp] theorem State.setReg_inputWait (s : State) (x : Reg) (b : Byte) : (s.setReg x b).inputWait = s.inputWait := rfl
@[simp] theorem State.setReg_fault (s : State) (x : Reg) (b : Byte) : (s.setReg x b).fault = s.fault := rfl
@[simp] theorem State.setReg_rnd (s : State) (x : Reg) (b : Byte) : (s.setReg x b).rnd = s.rnd := rfl
@[simp] theorem State.setReg_draws (s : State) (x : Reg) (b : Byte) : (s.setReg x b).draws = s.draws := rfl
@[simp] theorem State.setReg_cfg (s : State) (x : Reg) (b : Byte) : (s.setReg x b).cfg = s.cfg := rfl

/-! ## `setRegFlag` -/
@[simp] theorem State.setRegFlag_mem (s : State) (x : Reg) (b : Byte) (f : Bool) : (s.setRegFlag x b f).mem = s.mem := rfl
@[simp] theorem State.setRegFlag_i (s : State) (x : Reg) (b : Byte) (f : Bool) : (s.setRegFlag x b f).i = s.i := rfl
@[simp] theorem State.setRegFlag_pc (s : State) (x : Reg) (b : Byte) (f : Bool) : (s.setRegFlag x b f).pc = s.pc := rfl
@[simp] theorem State.setRegFlag_stack (s : State) (x : Reg) (b : Byte) (f : Bool) : (s.setRegFlag x b f).stack = s.stack := rfl
@[simp] theorem State.setRegFlag_sp (s : State) (x : Reg) (b : Byte) (f : Bool) : (s.setRegFlag x b f).sp = s.sp := rfl
@[simp] theorem State.setRegFlag_dt (s : State) (x : Reg) (b : Byte) (f : Bool) : (s.setRegFlag x b f).dt = s.dt := rfl
@[simp] theorem State.setRegFlag_st (s : State) (x : Reg) (b : Byte) (f : Bool) : (s.setRegFlag x b f).st = s.st := rfl
@[simp] theorem State.setRegFlag_fb (s : State) (x : Reg) (b : Byte) (f : Bool) : (s.setRegFlag x b f).fb = s.fb := rfl
@[simp] theorem State.setRegFlag_frameDirty (s : State) (x : Reg) (b : Byte) (f : Bool) : (s.setRegFlag x b f).frameDirty = s.frameDirty := rfl
@[simp] theorem State.setRegFlag_key (s : State) (x : Reg) (b : Byte) (f : Bool) : (s.setRegFlag x b f).key = s.key := rfl
@[simp] theorem State.setRegFlag_inputWait (s : State) (x : Reg) (b : Byte) (f : Bool) : (s.setRegFlag x b f).inputWait = s.inputWait := rfl
@[simp] theorem State.setRegFlag_fault (s : State) (x : Reg) (b : Byte) (f : Bool) : (s.setRegFlag x b f).fault = s.fault := rfl
@[simp] theorem State.setRegFlag_rnd (s : State) (x : Reg) (b : Byte) (f : Bool) : (s.setRegFlag x b f).rnd = s.rnd := rfl
@[simp] theorem State.setRegFlag_draws (s : State) (x : Reg) (b : Byte) (f : Bool) : (s.setRegFlag x b f).draws = s.draws := rfl
@[simp] theorem State.setRegFlag_cfg (s : State) (x : Reg) (b : Byte) (f : Bool) : (s.setRegFlag x b f).cfg = s.cfg := rfl

/-! ## `setRegLogic` -/
@[simp] theorem State.setRegLogic_mem (s : State) (x : Reg) (b : Byte) : (s.setRegLogic x b).mem = s.mem := by
  unfold State.setRegLogic; split <;> rfl
@[simp] theorem State.setRegLogic_i (s : State) (x : Reg) (b : Byte) : (s.setRegLogic x b).i = s.i := by
  unfold State.setRegLogic; split <;> rfl
@[simp] theorem State.setRegLogic_pc (s : State) (x : Reg) (b : Byte) : (s.setRegLogic x b).pc = s.pc := by
  unfold State.setRegLogic; split <;> rfl
@[simp] theorem State.setRegLogic_stack (s : State) (x : Reg) (b : Byte) : (s.setRegLogic x b).stack = s.stack := by
  unfold State.setRegLogic; split <;> rfl
@[simp] theorem State.setRegLogic_sp (s : State) (x : Reg) (b : Byte) : (s.setRegLogic x b).sp = s.sp := by
  unfold State.setRegLogic; split <;> rfl
@[simp] theorem State.setRegLogic_dt (s : State) (x : Reg) (b : Byte) : (s.setRegLogic x b).dt = s.dt := by
  unfold State.setRegLogic; split <;> rfl
@[simp] theorem State.setRegLogic_st (s : State) (x : Reg) (b : Byte) : (s.setRegLogic x b).st = s.st := by
  unfold State.setRegLogic; split <;> rfl
@[simp] theorem State.setRegLogic_fb (s : State) (x : Reg) (b : Byte) : (s.setRegLogic x b).fb = s.fb := by
  unfold State.setRegLogic; split <;> rfl
@[simp] theorem State.setRegLogic_frameDirty (s : State) (x : Reg) (b : Byte) : (s.setRegLogic x b).frameDirty = s.frameDirty := by
  unfold State.setRegLogic; split <;> rfl
@[simp] theorem State.setRegLogic_key (s : State) (x : Reg) (b : Byte) : (s.setRegLogic x b).key = s.key := by
  unfold State.setRegLogic; split <;> rfl
@[simp] theorem State.setRegLogic_inputWait (s : State) (x : Reg) (b : Byte) : (s.setRegLogic x b).inputWait = s.inputWait := by
  unfold State.setRegLogic; split <;> rfl
@[simp] theorem State.setRegLogic_fault (s : State) (x : Reg) (b : Byte) : (s.setRegLogic x b).fault = s.fault := by
  unfold State.setRegLogic; split <;> rfl
@[simp] theorem State.setRegLogic_rnd (s : State) (x : Reg) (b : Byte) : (s.setRegLogic x b).rnd = s.rnd := by
  unfold State.setRegLogic; split <;> rfl
@[simp] theorem State.setRegLogic_draws (s : State) (x : Reg) (b : Byte) : (s.setRegLogic x b).draws = s.draws := by
  unfold State.setRegLogic; split <;> rfl
@[simp] theorem State.setRegLogic_cfg (s : State) (x : Reg) (b : Byte) : (s.setRegLogic x b).cfg = s.cfg := by
  unfold State.setRegLogic; split <;> rfl

/-! ## `advanceI` -/
@[simp] theorem State.advanceI_v (s : State) (x : Reg) : (s.advanceI x).v = s.v := by
  unfold State.advanceI; split <;> rfl
@[simp] theorem State.advanceI_mem (s : State) (x : Reg) : (s.advanceI x).mem = s.mem := by
  unfold State.advanceI; split <;> rfl
@[simp] theorem State.advanceI_pc (s : State) (x : Reg) : (s.advanceI x).pc = s.pc := by
  unfold State.advanceI; split <;> rfl
@[simp] theorem State.advanceI_stack (s : State) (x : Reg) : (s.advanceI x).stack = s.stack := by
  unfold State.advanceI; split <;> rfl
@[simp] theorem State.advanceI_sp (s : State) (x : Reg) : (s.advanceI x).sp = s.sp := by
  unfold State.advanceI; split <;> rfl
@[simp] theorem State.advanceI_dt (s : State) (x : Reg) : (s.advanceI x).dt = s.dt := by
  unfold State.advanceI; split <;> rfl
@[simp] theorem State.advanceI_st (s : State) (x : Reg) : (s.advanceI x).st = s.st := by
  unfold State.advanceI; split <;> rfl
@[simp] theorem State.advanceI_fb (s : State) (x : Reg) : (s.advanceI x).fb = s.fb := by
  unfold State.advanceI; split <;> rfl
@[simp] theorem State.advanceI_frameDirty (s : State) (x : Reg) : (s.advanceI x).frameDirty = s.frameDirty := by
  unfold State.advanceI; split <;> rfl
@[simp] theorem State.advanceI_key (s : State) (x : Reg) : (s.advanceI x).key = s.key := by
  unfold State.advanceI; split <;> rfl
@[simp] theorem State.advanceI_inputWait (s : State) (x : Reg) : (s.advanceI x).inputWait = s.inputWait := by
  unfold State.advanceI; split <;> rfl
@[simp] theorem State.advanceI_fault (s : State) (x : Reg) : (s.advanceI x).fault = s.fault := by
  unfold State.advanceI; split <;> rfl
@[simp] theorem State.advanceI_rnd (s : State) (x : Reg) : (s.advanceI x).rnd = s.rnd := by
  unfold State.advanceI; split <;> rfl
@[simp] theorem State.advanceI_draws (s : State) (x : Reg) : (s.advanceI x).draws = s.draws := by
  unfold State.advanceI; split <;> rfl
@[simp] theorem State.advanceI_cfg (s : State) (x : Reg) : (s.advanceI x).cfg = s.cfg := by
  unfold State.advanceI; split <;> rfl

@[simp] theorem State.advanceI_reg (s : State) (x r : Reg) : (s.advanceI x).reg r = s.reg r :=
  State.reg_congr (State.advanceI_v s x) r

theorem State.advanceI_i (s : State) (x : Reg) :
    (s.advanceI x).i = if s.cfg.loadStoreAdvancesI then s.i + BitVec.ofNat 16 (x.val + 1) else s.i := by
  unfold State.advanceI; split <;> rfl

/-! ## `setRegsFrom` -/
@[simp] theorem State.setRegsFrom_mem (s : State) (k : Nat) (bs : List Byte) : (s.setRegsFrom k bs).mem = s.mem := by
  induction bs generalizing s k with
  | nil => rfl
  | cons b rest ih => rw [State.setRegsFrom, ih]
@[simp] theorem State.setRegsFrom_i (s : State) (k : Nat) (bs : List Byte) : (s.setRegsFrom k bs).i = s.i := by
  induction bs generalizing s k with
  | nil => rfl
  | cons b rest ih => rw [State.setRegsFrom, ih]
@[simp] theorem State.setRegsFrom_pc (s : State) (k : Nat) (bs : List Byte) : (s.setRegsFrom k bs).pc = s.pc := by
  induction bs generalizing s k with
  | nil => rfl
  | cons b rest ih => rw [State.setRegsFrom, ih]
@[simp] theorem State.setRegsFrom_stack (s : State) (k : Nat) (bs : List Byte) : (s.setRegsFrom k bs).stack = s.stack := by
  induction bs generalizing s k with
  | nil => rfl
  | cons b rest ih => rw [State.setRegsFrom, ih]
@[simp] theorem State.setRegsFrom_sp (s : State) (k : Nat) (bs : List Byte) : (s.setRegsFrom k bs).sp = s.sp := by
  induction bs generalizing s k with
  | nil => rfl
  | cons b rest ih => rw [State.setRegsFrom, ih]
@[simp] theorem State.setRegsFrom_dt (s : State) (k : Nat) (bs : List Byte) : (s.setRegsFrom k bs).dt = s.dt := by
  induction bs generalizing s k with
  | nil => rfl
  | cons b rest ih => rw [State.setRegsFrom, ih]
@[simp] theorem State.setRegsFrom_st (s : State) (k : Nat) (bs : List Byte) : (s.setRegsFrom k bs).st = s.st := by
  induction bs generalizing s k with
  | nil => rfl
  | cons b rest ih => rw [State.setRegsFrom, ih]
@[simp] theorem State.setRegsFrom_fb (s : State) (k : Nat) (bs : List Byte) : (s.setRegsFrom k bs).fb = s.fb := by
  induction bs generalizing s k with
  | nil => rfl
  | cons b rest ih => rw [State.setRegsFrom, ih]
@[simp] theorem State.setRegsFrom_frameDirty (s : State) (k : Nat) (bs : List Byte) : (s.setRegsFrom k bs).frameDirty = s.frameDirty := by
  induction bs generalizing s k with
  | nil => rfl
  | cons b rest ih => rw [State.setRegsFrom, ih]
@[simp] theorem State.setRegsFrom_key (s : State) (k : Nat) (bs : List Byte) : (s.setRegsFrom k bs).key = s.key := by
  induction bs generalizing s k with
  | nil => rfl
  | cons b rest ih => rw [State.setRegsFrom, ih]
@[simp] theorem State.setRegsFrom_inputWait (s : State) (k : Nat) (bs : List Byte) : (s.setRegsFrom k bs).inputWait = s.inputWait := by
  induction bs generalizing s k with
  | nil => rfl
  | cons b rest ih => rw [State.setRegsFrom, ih]
@[simp] theorem State.setRegsFrom_fault (s : State) (k : Nat) (bs : List Byte) : (s.setRegsFrom k bs).fault = s.fault := by
  induction bs generalizing s k with
  | nil => rfl
  | cons b rest ih => rw [State.setRegsFrom, ih]
@[simp] theorem State.setRegsFrom_rnd (s : State) (k : Nat) (bs : List Byte) : (s.setRegsFrom k bs).rnd = s.rnd := by
  induction bs generalizing s k with
  | nil => rfl
  | cons b rest ih => rw [State.setRegsFrom, ih]
@[simp] theorem State.setRegsFrom_draws (s : State) (k : Nat) (bs : List Byte) : (s.setRegsFrom k bs).draws = s.draws := by
  induction bs generalizing s k with
  | nil => rfl
  | cons b rest ih => rw [State.setRegsFrom, ih]
@[simp] theorem State.setRegsFrom_cfg (s : State) (k : Nat) (bs : List Byte) : (s.setRegsFrom k bs).cfg = s.cfg := by
  induction bs generalizing s k with
  | nil => rfl
  | cons b rest ih => rw [State.setRegsFrom, ih]

/-! ## `tick` -/
@[simp] theorem State.tick_v (s : State) : (s.tick).v = s.v := rfl
@[simp] theorem State.tick_mem (s : State) : (s.tick).mem = s.mem := rfl
@[simp] theorem State.tick_i (s : State) : (s.tick).i = s.i := rfl
@[simp] theorem State.tick_pc (s : State) : (s.tick).pc = s.pc := rfl
@[simp] theorem State.tick_stack (s : State) : (s.tick).stack = s.stack := rfl
@[simp] theorem State.tick_sp (s : State) : (s.tick).sp = s.sp := rfl
@[simp] theorem State.tick_fb (s : State) : (s.tick).fb = s.fb := rfl
@[simp] theorem State.tick_frameDirty (s : State) : (s.tick).frameDirty = s.frameDirty := rfl
@[simp] theorem State.tick_key (s : State) : (s.tick).key = s.key := rfl
@[simp] theorem State.tick_inputWait (s : State) : (s.tick).inputWait = s.inputWait := rfl
@[simp] theorem State.tick_fault (s : State) : (s.tick).fault = s.fault := rfl
@[simp] theorem State.tick_rnd (s : State) : (s.tick).rnd = s.rnd := rfl
@[simp] theorem State.tick_draws (s : State) : (s.tick).draws = s.draws := rfl
@[simp] theorem State.tick_cfg (s : State) : (s.tick).cfg = s.cfg := rfl

/-! ## `afterTick` -/
@[simp] theorem State.afterTick_v (s : State) : (s.afterTick).v = s.v := rfl
@[simp] theorem State.afterTick_mem (s : State) : (s.afterTick).mem = s.mem := rfl
@[simp] theorem State.afterTick_i (s : State) : (s.afterTick).i = s.i := rfl
@[simp] theorem State.afterTick_pc (s : State) : (s.afterTick).pc = s.pc := rfl
@[simp] theorem State.afterTick_stack (s : State) : (s.afterTick).stack = s.stack := rfl
@[simp] theorem State.afterTick_sp (s : State) : (s.afterTick).sp = s.sp := rfl
@[simp] theorem State.afterTick_fb (s : State) : (s.afterTick).fb = s.fb := rfl
@[simp] theorem State.afterTick_key (s : State) : (s.afterTick).key = s.key := rfl
@[simp] theorem State.afterTick_inputWait (s : State) : (s.afterTick).inputWait = s.inputWait := rfl
@[simp] theorem State.afterTick_fault (s : State) : (s.afterTick).fault = s.fault := rfl
@[simp] theorem State.afterTick_rnd (s : State) : (s.afterTick).rnd = s.rnd := rfl
@[simp] theorem State.afterTick_cfg (s : State) : (s.afterTick).cfg = s.cfg := rfl

/-! ## `afterClear` -/
@[simp] theorem State.afterClear_v (s : State) : (s.afterClear).v = s.v := rfl
@[simp] theorem State.afterClear_mem (s : State) : (s.afterClear).mem = s.mem := rfl
@[simp] theorem State.afterClear_i (s : State) : (s.afterClear).i = s.i := rfl
@[simp] theorem State.afterClear_pc (s : State) : (s.afterClear).pc = s.pc := rfl
@[simp] theorem State.afterClear_stack (s : State) : (s.afterClear).stack = s.stack := rfl
@[simp] theorem State.afterClear_sp (s : State) : (s.afterClear).sp = s.sp := rfl
@[simp] theorem State.afterClear_dt (s : State) : (s.afterClear).dt = s.dt := rfl
@[simp] theorem State.afterClear_st (s : State) : (s.afterClear).st = s.st := rfl
@[simp] theorem State.afterClear_fb (s : State) : (s.afterClear).fb = s.fb := rfl
@[simp] theorem State.afterClear_key (s : State) : (s.afterClear).key = s.key := rfl
@[simp] theorem State.afterClear_inputWait (s : State) : (s.afterClear).inputWait = s.inputWait := rfl
@[simp] theorem State.afterClear_fault (s : State) : (s.afterClear).fault = s.fault := rfl
@[simp] theorem State.afterClear_rnd (s : State) : (s.afterClear).rnd = s.rnd := rfl
@[simp] theorem State.afterClear_cfg (s : State) : (s.afterClear).cfg = s.cfg := rfl

/-! ## `beginCycle` -/
@[simp] theorem State.beginCycle_v (s : State) : (s.beginCycle).v = s.v := by
  unfold State.beginCycle; dsimp only; split <;> rfl
@[simp] theorem State.beginCycle_mem (s : State) : (s.beginCycle).mem = s.mem := by
  unfold State.beginCycle; dsimp only; split <;> rfl
@[simp] theorem State.beginCycle_i (s : State) : (s.beginCycle).i = s.i := by
  unfold State.beginCycle; dsimp only; split <;> rfl
@[simp] theorem State.beginCycle_pc (s : State) : (s.beginCycle).pc = s.pc := by
  unfold State.beginCycle; dsimp only; split <;> rfl
@[simp] theorem State.beginCycle_stack (s : State) : (s.beginCycle).stack = s.stack := by
  unfold State.beginCycle; dsimp only; split <;> rfl
@[simp] theorem State.beginCycle_sp (s : State) : (s.beginCycle).sp = s.sp := by
  unfold State.beginCycle; dsimp only; split <;> rfl
@[simp] theorem State.beginCycle_fb (s : State) : (s.beginCycle).fb = s.fb := by
  unfold State.beginCycle; dsimp only; split <;> rfl
@[simp] theorem State.beginCycle_key (s : State) : (s.beginCycle).key = s.key := by
  unfold State.beginCycle; dsimp only; split <;> rfl
@[simp] theorem State.beginCycle_inputWait (s : State) : (s.beginCycle).inputWait = s.inputWait := by
  unfold State.beginCycle; dsimp only; split <;> rfl
@[simp] theorem State.beginCycle_fault (s : State) : (s.beginCycle).fault = s.fault := by
  unfold State.beginCycle; dsimp only; split <;> rfl
@[simp] theorem State.beginCycle_rnd (s : State) : (s.beginCycle).rnd = s.rnd := by
  unfold State.beginCycle; dsimp only; split <;> rfl
@[simp] theorem State.beginCycle_cfg (s : State) : (s.beginCycle).cfg = s.cfg := by
  unfold State.beginCycle; dsimp only; split <;> rfl

@[simp] theorem State.afterTick_reg (s : State) (r : Reg) : s.afterTick.reg r = s.reg r := rfl

@[simp] theorem State.afterTick_frameDirty (s : State) : s.afterTick.frameDirty = false := rfl

@[simp] theorem State.afterTick_dt (s : State) : s.afterTick.dt = ticked s.dt := rfl

@[simp] theorem State.afterTick_st (s : State) : s.afterTick.st = ticked s.st := rfl

theorem State.setRegFlag_reg (s : State) (x r : Reg) (b : Byte) (f : Bool) :
    (s.setRegFlag x b f).reg r = if r = VF then flagByte f else if r = x then b else s.reg r := by
  simp only [State.setRegFlag, State.setReg_reg]

theorem State.setRegLogic_reg (s : State) (x r : Reg) (b : Byte) :
    (s.setRegLogic x b).reg r =
      if s.cfg.logicClearsVF ∧ r = VF then 0 else if r = x then b else s.reg r := by
  unfold State.setRegLogic
  by_cases h : s.cfg.logicClearsVF <;> simp [h, State.setReg_reg]

end Sys2Proof.Machine
end

