-- ==== Sys2Proof/Laws/Memory.lean ====
section
/-! SUPPORT. The laws of memory: what a read gives after a write, and that every operation keeps the canonical form. -/

namespace Sys2Proof.Machine

/-! ## Canonical form -/

theorem Memory.wfFrom_mono {lo lo' : Nat} {m : Memory} (h : lo' ≤ lo) (w : m.wfFrom lo = true) :
    m.wfFrom lo' = true := by
  cases m with
  | nil => rfl
  | cons c cs =>
    simp only [Memory.wfFrom, Bool.and_eq_true, decide_eq_true_eq] at w ⊢
    exact ⟨⟨⟨by omega, w.1.1.2⟩, w.1.2⟩, w.2⟩

theorem Memory.cons_wfFrom {lo a : Nat} {b : Byte} {m : Memory} (hlo : lo ≤ a) (ha : a < memSize)
    (w : m.wfFrom (a + 1) = true) : (Memory.cons a b m).wfFrom lo = true := by
  unfold Memory.cons
  split
  · exact Memory.wfFrom_mono (by omega) w
  · next h => simp [Memory.wfFrom, hlo, ha, h, w]

theorem Memory.set_wfFrom {lo a : Nat} {b : Byte} {m : Memory} (hlo : lo ≤ a) (ha : a < memSize)
    (w : m.wfFrom lo = true) : (m.set a b).wfFrom lo = true := by
  induction m generalizing lo with
  | nil => exact Memory.cons_wfFrom hlo ha rfl
  | cons c cs ih =>
    simp only [Memory.wfFrom, Bool.and_eq_true, decide_eq_true_eq] at w
    obtain ⟨⟨⟨h1, h2⟩, h3⟩, h4⟩ := w
    unfold Memory.set
    split
    · next h =>
      refine Memory.cons_wfFrom hlo ha ?_
      simp only [Memory.wfFrom, Bool.and_eq_true, decide_eq_true_eq]
      exact ⟨⟨⟨by omega, h2⟩, h3⟩, h4⟩
    · split
      · next h => exact Memory.cons_wfFrom hlo ha (by rw [h]; exact h4)
      · next h h' =>
        simp only [Memory.wfFrom, Bool.and_eq_true, decide_eq_true_eq]
        exact ⟨⟨⟨h1, h2⟩, h3⟩, ih (by omega) h4⟩

/-- One write keeps the canonical form. -/
theorem Memory.write_wf {m : Memory} (a : Nat) (b : Byte) (w : m.wf = true) : (m.write a b).wf = true := by
  unfold Memory.write
  split
  · next h => exact Memory.set_wfFrom (Nat.zero_le a) h w
  · exact w

/-- A block of writes keeps the canonical form. -/
theorem Memory.writeBlock_wf {m : Memory} (a : Nat) (bs : List Byte) (w : m.wf = true) :
    (m.writeBlock a bs).wf = true := by
  induction bs generalizing m a with
  | nil => exact w
  | cons b rest ih => exact ih (a + 1) (Memory.write_wf a b w)

/-! ## Reads -/

/-- Below every listed address, a canonical memory reads as unlisted. -/
theorem Memory.read_below {lo a : Nat} {m : Memory} (h : a < lo) (w : m.wfFrom lo = true) :
    m.read a = Memory.unlisted a := by
  induction m generalizing lo with
  | nil => rfl
  | cons c cs ih =>
    simp only [Memory.wfFrom, Bool.and_eq_true, decide_eq_true_eq] at w
    have hc : c.1 ≠ a := by omega
    simp only [Memory.read, hc, if_false]
    exact ih (by omega) w.2

/-- A canonical memory lists nothing above 0xFFF. -/
theorem Memory.read_above {lo a : Nat} {m : Memory} (h : memSize ≤ a) (w : m.wfFrom lo = true) :
    m.read a = Memory.unlisted a := by
  induction m generalizing lo with
  | nil => rfl
  | cons c cs ih =>
    simp only [Memory.wfFrom, Bool.and_eq_true, decide_eq_true_eq] at w
    have hc : c.1 ≠ a := by omega
    simp only [Memory.read, hc, if_false]
    exact ih w.2

theorem Memory.read_cons_ne {a a' : Nat} {b : Byte} {m : Memory} (h : a' ≠ a) :
    (Memory.cons a b m).read a' = m.read a' := by
  unfold Memory.cons
  split
  · rfl
  · simp [Memory.read, Ne.symm h]

theorem Memory.read_cons_self {a : Nat} {b : Byte} {m : Memory} (w : m.wfFrom (a + 1) = true) :
    (Memory.cons a b m).read a = b := by
  unfold Memory.cons
  split
  · next h => rw [Memory.read_below (Nat.lt_succ_self a) w, h]
  · simp [Memory.read]

/-- A write leaves every other address alone, whatever the memory. -/
theorem Memory.read_set_ne {a a' : Nat} {b : Byte} {m : Memory} (h : a' ≠ a) :
    (m.set a b).read a' = m.read a' := by
  induction m with
  | nil => exact Memory.read_cons_ne h
  | cons c cs ih =>
    unfold Memory.set
    split
    · exact Memory.read_cons_ne h
    · split
      · next h' =>
        rw [Memory.read_cons_ne h, Memory.read]
        rw [if_neg (by omega)]
      · simp only [Memory.read, ih]

/-- A write is read back, in a canonical memory. -/
theorem Memory.read_set_self {lo a : Nat} {b : Byte} {m : Memory} (w : m.wfFrom lo = true) :
    (m.set a b).read a = b := by
  induction m generalizing lo with
  | nil => exact Memory.read_cons_self rfl
  | cons c cs ih =>
    have w' := w
    simp only [Memory.wfFrom, Bool.and_eq_true, decide_eq_true_eq] at w
    unfold Memory.set
    split
    · next h =>
      refine Memory.read_cons_self ?_
      simp only [Memory.wfFrom, Bool.and_eq_true, decide_eq_true_eq]
      exact ⟨⟨⟨by omega, w.1.1.2⟩, w.1.2⟩, w.2⟩
    · split
      · next h => exact Memory.read_cons_self (by rw [h]; exact w.2)
      · next h h' =>
        rw [Memory.read, if_neg (by omega)]
        exact ih w.2

theorem Memory.read_write_ne {a a' : Nat} {b : Byte} {m : Memory} (h : a' ≠ a) :
    (m.write a b).read a' = m.read a' := by
  unfold Memory.write
  split
  · exact Memory.read_set_ne h
  · rfl

theorem Memory.read_write_self {a : Nat} {b : Byte} {m : Memory} (w : m.wf = true) (h : a < memSize) :
    (m.write a b).read a = b := by
  rw [Memory.write, if_pos h]
  exact Memory.read_set_self w

/-- A write above 0xFFF is dropped (20_memory.md R55). -/
theorem Memory.write_dropped {a : Nat} (b : Byte) (m : Memory) (h : memSize ≤ a) : m.write a b = m :=
  if_neg (Nat.not_lt.mpr h)

/-- A block of writes leaves every address outside it alone, whatever the memory. -/
theorem Memory.read_writeBlock_outside {a a' : Nat} {bs : List Byte} {m : Memory}
    (h : a' < a ∨ a + bs.length ≤ a' ∨ memSize ≤ a') : (m.writeBlock a bs).read a' = m.read a' := by
  induction bs generalizing m a with
  | nil => rfl
  | cons b rest ih =>
    simp only [List.length_cons] at h
    rw [Memory.writeBlock, ih (by omega)]
    by_cases e : a' = a
    · rw [Memory.write_dropped b m (by omega)]
    · exact Memory.read_write_ne e

/-- Byte `k` of a block is read back where its address exists, in a canonical memory. -/
theorem Memory.read_writeBlock_inside {a k : Nat} {bs : List Byte} {m : Memory} (w : m.wf = true)
    (hk : k < bs.length) (h : a + k < memSize) : (m.writeBlock a bs).read (a + k) = bs[k] := by
  induction bs generalizing m a k with
  | nil => exact absurd hk (Nat.not_lt_zero k)
  | cons b rest ih =>
    rw [Memory.writeBlock]
    cases k with
    | zero =>
      rw [Memory.read_writeBlock_outside (by omega)]
      exact Memory.read_write_self w h
    | succ k =>
      have e : a + (k + 1) = (a + 1) + k := by omega
      rw [e, ih (Memory.write_wf a b w) (by simpa using hk) (by omega)]
      rfl

end Sys2Proof.Machine
end

