-- ==== Sys2Proof/Laws/Ops.lean ====
section
/-! SUPPORT. One lemma for each shared operation that says once everything it can do. -/

namespace Sys2Proof.Machine

/-! ## The end of an instruction -/

/-- An instruction that completes changes the pc alone, by its directive. -/
theorem State.finish_next {s t : State} {d : Directive} (h : s.finish d = .next t) :
    t = { s with pc := d.target s.pc } := (Host.Outcome.next.inj h).symm

/-- Raising a fatal fault writes the record alone (60_exceptions.md R232). -/
theorem State.raise_next {s t : State} {c : FaultCode} {w : Word} (h : s.raise c w = .next t) :
    t = { s with fault := some { code := c, pc := s.pc, word := w } } := (Host.Outcome.next.inj h).symm

/-! ## The stack -/

theorem State.push_eq (s : State) (a : Word) (h : s.sp.val < 16) :
    s.push a = some { s with stack := s.stack.set s.sp.val a h, sp := ⟨s.sp.val + 1, by omega⟩ } := dif_pos h

theorem State.push_full (s : State) (a : Word) (h : ¬ s.sp.val < 16) : s.push a = none := dif_neg h

theorem State.pop_eq (s : State) (h : 0 < s.sp.val) :
    s.pop = some (s.stack[s.sp.val - 1]'(by omega), { s with sp := ⟨s.sp.val - 1, by omega⟩ }) := dif_pos h

theorem State.pop_empty (s : State) (h : ¬ 0 < s.sp.val) : s.pop = none := dif_neg h

/-! ## Data reads (20_memory.md R54) -/

theorem State.memRead_inRange (s : State) {a : Nat} (h : a < memSize) : s.memRead a = some (s.mem.read a) := if_pos h

theorem State.memRead_fault (s : State) {a : Nat} (h : ¬ a < memSize) (p : s.cfg.oobRead = .fault) :
    s.memRead a = none := by
  rw [State.memRead, if_neg h, p]

theorem State.memRead_any (s : State) (a : Nat) (p : s.cfg.oobRead = .any) :
    ∃ b, s.memRead a = some b ∧ (a < memSize → b = s.mem.read a) := by
  by_cases h : a < memSize
  · exact ⟨_, s.memRead_inRange h, fun _ => rfl⟩
  · exact ⟨_, by rw [State.memRead, if_neg h, p], fun h' => absurd h' h⟩

/-- A block whose last address exists is read as memory holds it. -/
theorem State.memReadBlock_inRange (s : State) (a n : Nat) (h : n = 0 ∨ a + (n - 1) < memSize) :
    s.memReadBlock a n = some ((List.range n).map fun k => s.mem.read (a + k)) := by
  induction n generalizing a with
  | zero => rfl
  | succ n ih =>
    have e : (fun k => s.mem.read (a + 1 + k)) = fun k => s.mem.read (a + (k + 1)) := by
      funext k; congr 1; omega
    simp only [State.memReadBlock, s.memRead_inRange (show a < memSize by omega), ih (a + 1) (by omega), e,
      List.range_succ_eq_map, List.map_cons, List.map_map, Nat.add_zero]
    rfl

/-- A block that reaches above 0xFFF raises, under OOB_READ_POLICY = fault. -/
theorem State.memReadBlock_fault (s : State) (a n : Nat) (hn : 0 < n) (h : memSize ≤ a + (n - 1))
    (p : s.cfg.oobRead = .fault) : s.memReadBlock a n = none := by
  induction n generalizing a with
  | zero => omega
  | succ n ih =>
    rw [State.memReadBlock]
    by_cases ha : a < memSize
    · rw [s.memRead_inRange ha, ih (a + 1) (by omega) (by omega)]
    · rw [s.memRead_fault ha p]

/-- A block read under OOB_READ_POLICY = any never raises, and the bytes that exist are read as they are. -/
theorem State.memReadBlock_any (s : State) (a n : Nat) (p : s.cfg.oobRead = .any) :
    ∃ bs, s.memReadBlock a n = some bs ∧ bs.length = n ∧
      ∀ k < n, a + k < memSize → bs[k]? = some (s.mem.read (a + k)) := by
  induction n generalizing a with
  | zero => exact ⟨[], rfl, rfl, fun k h => absurd h (Nat.not_lt_zero k)⟩
  | succ n ih =>
    obtain ⟨b, hb, hr⟩ := s.memRead_any a p
    obtain ⟨bs, hbs, hl, hk⟩ := ih (a + 1)
    refine ⟨b :: bs, by rw [State.memReadBlock, hb, hbs], by simp [hl], fun k hkn hka => ?_⟩
    cases k with
    | zero => simp [hr hka]
    | succ k =>
      have := hk k (by omega) (by omega)
      rw [show a + 1 + k = a + (k + 1) by omega] at this
      simpa using this

/-- A block read that raises reaches above 0xFFF under OOB_READ_POLICY = fault. -/
theorem State.memReadBlock_none {s : State} {a n : Nat} (h : s.memReadBlock a n = none) :
    s.cfg.oobRead = .fault ∧ 0 < n ∧ memSize ≤ a + (n - 1) := by
  cases p : s.cfg.oobRead with
  | any =>
    obtain ⟨bs, hbs, -⟩ := s.memReadBlock_any a n p
    rw [hbs] at h; cases h
  | fault =>
    refine ⟨rfl, ?_⟩
    by_contra hc
    rw [s.memReadBlock_inRange a n (by omega)] at h
    cases h

/-! ## Loading registers -/

/-- Register `r` after registers from `k` on were loaded. -/
theorem State.setRegsFrom_reg (s : State) (k : Nat) (bs : List Byte) (r : Reg) :
    (s.setRegsFrom k bs).reg r =
      if h : k ≤ r.val ∧ r.val - k < bs.length then bs[r.val - k]'h.2 else s.reg r := by
  induction bs generalizing s k with
  | nil => simp [State.setRegsFrom]
  | cons b rest ih =>
    rw [State.setRegsFrom, ih]
    by_cases h1 : k + 1 ≤ r.val ∧ r.val - (k + 1) < rest.length
    · rw [dif_pos h1, dif_pos ⟨by omega, by simp only [List.length_cons]; omega⟩]
      have e : r.val - k = (r.val - (k + 1)) + 1 := by omega
      simp only [e, List.getElem_cons_succ]
    · rw [dif_neg h1]
      by_cases h2 : k = r.val
      · subst h2
        simp [State.reg]
      · rw [dif_neg (by simp only [List.length_cons]; omega)]
        simp [State.reg, h2]

/-! ## The key test (45_timers_input.md R216) -/

theorem State.keyPressed_inRange (s : State) (b : Byte) (h : b.toNat < 16) : s.keyPressed b = some s.key[b.toNat] :=
  dif_pos h

theorem State.keyPressed_fault (s : State) (b : Byte) (h : ¬ b.toNat < 16) (p : s.cfg.keyIndex = .fault) :
    s.keyPressed b = none := by
  rw [State.keyPressed, dif_neg h, p]

theorem State.keyPressed_any (s : State) (b : Byte) (p : s.cfg.keyIndex = .any) : ∃ down, s.keyPressed b = some down := by
  by_cases h : b.toNat < 16
  · exact ⟨_, s.keyPressed_inRange b h⟩
  · exact ⟨_, by rw [State.keyPressed, dif_neg h, p]⟩

theorem State.keyPressed_none {s : State} {b : Byte} (h : s.keyPressed b = none) :
    s.cfg.keyIndex = .fault ∧ 15 < b.toNat := by
  cases p : s.cfg.keyIndex with
  | any => obtain ⟨d, hd⟩ := s.keyPressed_any b p; rw [hd] at h; cases h
  | fault =>
    refine ⟨rfl, ?_⟩
    by_contra hc
    rw [s.keyPressed_inRange b (by omega)] at h
    cases h

/-! ## The cycle -/

theorem tickByte_eq_ticked (b : Byte) : tickByte b = ticked b := by
  unfold tickByte ticked
  by_cases h : b = 0#8
  · subst h; rfl
  · have h0 : 0 < b.toNat := Nat.pos_of_ne_zero fun e => h (BitVec.eq_of_toNat_eq e)
    rw [if_neg h, if_pos h0]

theorem ticked_toNat (b : Byte) : (ticked b).toNat = b.toNat - 1 := by
  unfold ticked
  split
  · next h => bv_omega
  · omega

theorem State.tick_eq (s : State) : s.tick = { s with dt := ticked s.dt, st := ticked s.st } := by
  simp only [State.tick, tickByte_eq_ticked]

/-- Phases 1 and 2 of a Running state. -/
theorem State.beginCycle_running {s : State} (h : s.inputWait = none) : s.beginCycle = s.afterTick := by
  have e : (s.inputWait.isNone || s.cfg.tickWhileWaiting) = true := by simp [h]
  simp only [State.beginCycle, e, if_true, State.tick_eq]
  rfl

/-- Phases 1 and 2 of an AwaitingInput state. -/
theorem State.beginCycle_awaiting {s : State} {r : Reg} (h : s.inputWait = some r) :
    s.beginCycle = if s.cfg.tickWhileWaiting then s.afterTick else s.afterClear := by
  have e : (s.inputWait.isNone || s.cfg.tickWhileWaiting) = s.cfg.tickWhileWaiting := by simp [h]
  simp only [State.beginCycle, e, State.tick_eq]
  rfl

theorem State.fetch_inRange {s : State} (h : s.FetchInRange) : s.fetch = some s.wordAtPc := by
  have h2 : s.pc.toNat + 1 < memSize := Nat.lt_succ_of_le h
  have h1 : s.pc.toNat < memSize := Nat.lt_of_succ_lt h2
  rw [State.fetch, if_pos (Or.inl h2), State.fetchByte, State.fetchByte, if_pos h1, if_pos h2]
  rfl

/-- The least pressed key is found: no key is pressed, or `k` is and none below it. -/
theorem State.leastKey_none {s : State} (h : ∀ k : Fin 16, s.key[k.val] = false) : s.leastKey = none := by
  unfold State.leastKey
  rw [List.find?_eq_none]
  intro k _
  simp [h k]

theorem State.leastKey_some {s : State} {k : Fin 16} (hk : s.key[k.val] = true)
    (hlt : ∀ j : Fin 16, j < k → s.key[j.val] = false) : s.leastKey = some k := by
  unfold State.leastKey
  rw [List.find?_eq_some_iff_getElem]
  refine ⟨hk, k.val, by simp, by simp, fun j hj => ?_⟩
  have hj16 : j < 16 := by omega
  have := hlt ⟨j, hj16⟩ hj
  simpa using this

end Sys2Proof.Machine
end

