-- ==== Sys2Proof/Laws/Display.lean ====
section
/-! SUPPORT. What drawing a sprite does, pixel by pixel (44_display.md R191, R192): one lemma each for one flip, one row
and the whole sprite. -/

namespace Sys2Proof.Machine

/-- One flip changes the one pixel. -/
theorem Framebuffer.flip_pixel (fb : Framebuffer) (r r' : Fin 32) (c c' : Fin 64) :
    (fb.flip r c).pixel r' c' = (fb.pixel r' c' ^^ (decide (r = r') && decide (c = c'))) := by
  unfold Framebuffer.flip Framebuffer.pixel
  by_cases hr : r = r'
  · subst hr
    by_cases hc : c = c'
    · subst hc; simp
    · have : c.val ≠ c'.val := fun e => hc (Fin.ext e)
      simp [hc, this]
  · have : r.val ≠ r'.val := fun e => hr (Fin.ext e)
    simp [hr, this]

/-- The pixels and the collision of `k` bits of a sprite row from column `c` on; no column is met twice. -/
theorem Blit.drawBits_spec (k : Nat) : ∀ (b : Blit) (py : Fin 32) (vx row : Byte) (c : Nat), c + k ≤ 64 →
    (∀ r' c', (b.drawBits py vx row c k).1.pixel r' c' = (b.1.pixel r' c' ^^ (decide (py = r') &&
      (List.range k).any fun j => decide (spriteCol vx (c + j) = c') && row.getLsbD (7 - (c + j))))) ∧
    ((b.drawBits py vx row c k).2 = (b.2 || (List.range k).any fun j => row.getLsbD (7 - (c + j)) && b.1.pixel py (spriteCol vx (c+j)))) := by
  induction k with
  | zero => intro b py vx row c h; simp [Blit.drawBits]
  | succ k ih =>
    intro b py vx row c h
    rw [Blit.drawBits]
    have hd : ∀ j < k, spriteCol vx (c + (j + 1)) ≠ spriteCol vx c := by
      intro j hj e
      have := congrArg Fin.val e
      simp only [spriteCol, Fin.ofNat] at this
      omega
    have shift : ∀ (p : Nat → Bool), (List.range (k+1)).any p = (p 0 || (List.range k).any fun j => p (j + 1)) := by
      intro p; rw [List.range_succ_eq_map]; simp [List.any_map, Function.comp_def]
    have e1 : ∀ j, c + 1 + j = c + (j + 1) := by omega
    by_cases hb : row.getLsbD (7 - c)
    · simp only [hb, if_true]
      obtain ⟨h1, h2⟩ := ih (b.hit py (spriteCol vx c)) py vx row (c+1) (by omega)
      refine ⟨fun r' c' => ?_, ?_⟩
      · rw [h1, shift]
        simp only [Blit.hit, Framebuffer.flip_pixel, e1, Nat.add_zero, hb, Bool.and_true]
        by_cases hp : py = r' <;> simp only [hp, decide_true, decide_false, Bool.true_and, Bool.false_and, Bool.xor_false]
        by_cases hc : spriteCol vx c = c'
        · have : ((List.range k).any fun j => decide (spriteCol vx (c + (j + 1)) = c') && row.getLsbD (7 - (c + (j + 1)))) = false := by
            simp only [List.any_eq_false, List.mem_range, Bool.and_eq_true, decide_eq_true_eq, not_and]
            intro j hj e; exact absurd (e.trans hc.symm) (hd j hj)
          rw [this]; simp [hc]
        · simp [hc]
      · rw [h2, shift]
        simp only [Blit.hit, e1, Nat.add_zero, hb, Bool.true_and, Bool.or_assoc]
        congr 2
        rw [Bool.eq_iff_iff]
        simp only [List.any_eq_true, List.mem_range, Bool.and_eq_true]
        constructor
        · rintro ⟨j, hj, h3, h4⟩; refine ⟨j, hj, h3, ?_⟩; rw [Framebuffer.flip_pixel] at h4; simpa [Ne.symm (hd j hj)] using h4
        · rintro ⟨j, hj, h3, h4⟩; refine ⟨j, hj, h3, ?_⟩; rw [Framebuffer.flip_pixel]; simpa [Ne.symm (hd j hj)] using h4
    · simp only [hb]
      obtain ⟨h1, h2⟩ := ih b py vx row (c+1) (by omega)
      refine ⟨fun r' c' => ?_, ?_⟩
      · rw [if_neg (by simp), h1, shift]; simp [e1, hb]
      · rw [if_neg (by simp), h2, shift]; simp [e1, hb]

/-- The bit of one sprite row that falls on the pixel column `px`. -/
def rowHit (vx row : Byte) (px : Fin 64) : Bool := (List.range 8).any fun j => decide (spriteCol vx j = px) && row.getLsbD (7 - j)

/-- The pixels and the collision of one sprite row. -/
theorem Blit.drawRow_spec (b : Blit) (py : Fin 32) (vx row : Byte) :
    (∀ r' c', (b.drawBits py vx row 0 8).1.pixel r' c' = (b.1.pixel r' c' ^^ (decide (py = r') && rowHit vx row c'))) ∧
    ((b.drawBits py vx row 0 8).2 = true ↔ b.2 = true ∨ ∃ px, rowHit vx row px = true ∧ b.1.pixel py px = true) := by
  obtain ⟨h1, h2⟩ := Blit.drawBits_spec 8 b py vx row 0 (by omega)
  refine ⟨fun r' c' => by rw [h1]; simp [rowHit], ?_⟩
  rw [h2, Bool.or_eq_true]
  refine or_congr_right ?_
  simp only [List.any_eq_true, List.mem_range, Bool.and_eq_true, rowHit, decide_eq_true_eq, Nat.zero_add]
  constructor
  · rintro ⟨j, hj, h3, h4⟩; exact ⟨_, ⟨j, hj, rfl, h3⟩, h4⟩
  · rintro ⟨px, ⟨j, hj, rfl, h3⟩, h4⟩; exact ⟨j, hj, h3, h4⟩

/-- The bit of the sprite rows from row `r` on that falls on a pixel. -/
def bitAt (vx vy : Byte) (r : Nat) (rows : List Byte) (py : Fin 32) (px : Fin 64) : Bool :=
  (List.range rows.length).any fun j => decide (spriteRow vy (r + j) = py) && rowHit vx (rows.getD j 0) px

theorem bitAt_cons (vx vy : Byte) (r : Nat) (row : Byte) (rows : List Byte) (py : Fin 32) (px : Fin 64) :
    bitAt vx vy r (row :: rows) py px = ((decide (spriteRow vy r = py) && rowHit vx row px) || bitAt vx vy (r+1) rows py px) := by
  unfold bitAt
  rw [List.length_cons, List.range_succ_eq_map]
  have e1 : ∀ j, r + 1 + j = r + (j + 1) := by omega
  simp [List.any_map, Function.comp_def, e1]

/-- The pixels and the collision of a whole sprite: no row is met twice, and a collision is a pixel that was 1 under a 1
bit (44_display.md R192). -/
theorem Blit.drawRows_spec (rows : List Byte) : ∀ (b : Blit) (vx vy : Byte) (r : Nat), r + rows.length ≤ 32 →
    (∀ py px, (b.drawRows vx vy r rows).1.pixel py px = (b.1.pixel py px ^^ bitAt vx vy r rows py px)) ∧
    ((b.drawRows vx vy r rows).2 = true ↔ b.2 = true ∨ ∃ py px, bitAt vx vy r rows py px = true ∧ b.1.pixel py px = true) := by
  induction rows with
  | nil => intro b vx vy r h; simp [Blit.drawRows, bitAt]
  | cons row rows ih =>
    intro b vx vy r h
    simp only [List.length_cons] at h
    rw [Blit.drawRows]
    obtain ⟨a1, a2⟩ := Blit.drawRow_spec b (spriteRow vy r) vx row
    obtain ⟨h1, h2⟩ := ih (b.drawBits (spriteRow vy r) vx row 0 8) vx vy (r+1) (by omega)
    have hd : ∀ px, bitAt vx vy (r+1) rows (spriteRow vy r) px = false := by
      intro px
      simp only [bitAt, List.any_eq_false, List.mem_range, Bool.and_eq_true, decide_eq_true_eq, not_and]
      intro j hj e
      have := congrArg Fin.val e
      simp only [spriteRow, Fin.ofNat] at this
      omega
    refine ⟨fun py px => ?_, ?_⟩
    · rw [h1, a1, bitAt_cons]
      by_cases hp : spriteRow vy r = py
      · subst hp; simp [hd]
      · simp [hp]
    · rw [h2, a2]
      simp only [bitAt_cons, a1]
      constructor
      · rintro ((h | ⟨px, h3, h4⟩) | ⟨py, px, h3, h4⟩)
        · exact Or.inl h
        · exact Or.inr ⟨_, px, by simp [h3], h4⟩
        · refine Or.inr ⟨py, px, by simp [h3], ?_⟩
          have : spriteRow vy r ≠ py := by intro e; subst e; rw [hd] at h3; cases h3
          simpa [this] using h4
      · rintro (h | ⟨py, px, h3, h4⟩)
        · exact Or.inl (Or.inl h)
        · rw [Bool.or_eq_true] at h3
          rcases h3 with h3 | h3
          · simp only [Bool.and_eq_true, decide_eq_true_eq] at h3
            obtain ⟨rfl, h3⟩ := h3
            exact Or.inl (Or.inr ⟨px, h3, h4⟩)
          · refine Or.inr ⟨py, px, h3, ?_⟩
            have : spriteRow vy r ≠ py := by intro e; subst e; rw [hd] at h3; cases h3
            simpa [this] using h4

/-- For a whole sprite that bit is the one claims speak of. -/
theorem bitAt_eq (rows : List Byte) (vx vy : Byte) (py : Fin 32) (px : Fin 64) : bitAt vx vy 0 rows py px = spriteBit rows vx vy py px := by
  unfold bitAt spriteBit rowHit
  congr 1
  funext r
  rw [Bool.eq_iff_iff]
  simp only [List.any_eq_true, Bool.and_eq_true, decide_eq_true_eq, spriteRow, spriteCol, Fin.ofNat, Fin.ext_iff, Nat.zero_add]
  constructor
  · rintro ⟨h, j, h1, h2, h3⟩; exact ⟨j, h1, ⟨h, h2⟩, h3⟩
  · rintro ⟨j, h1, ⟨h, h2⟩, h3⟩; exact ⟨h, j, h1, h2, h3⟩

end Sys2Proof.Machine
end

