-- ==== Sys2Proof/Laws/Exec.lean ====
section
/-! SUPPORT. Once for all instructions: what a meaning may touch, and where its pc goes. Every rule over all instructions
follows from these without unfolding a meaning again. -/

namespace Sys2Proof.Machine

/-! ## Frames of the shared operations -/

theorem Frame.of_pc (s : State) (p : Word) : Frame {} s { s with pc := p } := by
  constructor <;> intros <;> rfl

theorem Frame.of_setReg (s : State) (x : Reg) (b : Byte) (p : Word) :
    Frame { regs := [x] } s { (s.setReg x b) with pc := p } := by
  constructor
  case regs => intro r hr; exact State.setReg_reg_ne s x r b (by simpa using hr)
  all_goals intros; rfl

theorem Frame.of_setRegFlag (s : State) (x : Reg) (b : Byte) (f : Bool) (p : Word) :
    Frame { regs := [x, VF] } s { (s.setRegFlag x b f) with pc := p } := by
  constructor
  case regs =>
    intro r hr
    simp only [List.mem_cons, List.not_mem_nil, or_false, not_or] at hr
    refine (State.setRegFlag_reg s x r b f).trans ?_
    simp [hr]
  all_goals intros; rfl

theorem Frame.of_setRegLogic (s : State) (x : Reg) (b : Byte) (p : Word) :
    Frame { regs := if s.cfg.logicClearsVF then [x, VF] else [x] } s { (s.setRegLogic x b) with pc := p } := by
  constructor
  case regs =>
    intro r hr
    refine (State.setRegLogic_reg s x r b).trans ?_
    by_cases h : s.cfg.logicClearsVF <;> simp_all
  all_goals intros; simp

theorem State.regsUpTo_length (s : State) (x : Reg) : (s.regsUpTo x).length = x.val + 1 := by
  simp [State.regsUpTo]

theorem State.regsUpTo_getElem (s : State) (x k : Reg) (h : k.val < (s.regsUpTo x).length) :
    (s.regsUpTo x)[k.val] = s.reg k := by
  simp [State.regsUpTo, State.reg]

theorem addrOf_toNat (a : Addr12) : (addrOf a).toNat = a.toNat := by
  have := a.isLt; simp [addrOf]; omega

theorem wordOf_toNat (b : Byte) : (wordOf b).toNat = b.toNat := by
  have := b.isLt; simp [wordOf]; omega

/-! ## What a meaning may touch -/

/-- What an instruction may change when it raises no fault, the pc apart. -/
def touches (i : Instr) (s : State) : Touches :=
  match i with
  | .cls => { display := true }
  | .ret => { sp := true }
  | .jp _ => {}
  | .call _ => { stack := [s.sp.val], sp := true }
  | .seImm _ _ => {}
  | .sneImm _ _ => {}
  | .seReg _ _ => {}
  | .ldImm x _ => { regs := [x] }
  | .addImm x _ => { regs := [x] }
  | .ldReg x _ => { regs := [x] }
  | .orReg x _ => { regs := if s.cfg.logicClearsVF then [x, VF] else [x] }
  | .andReg x _ => { regs := if s.cfg.logicClearsVF then [x, VF] else [x] }
  | .xorReg x _ => { regs := if s.cfg.logicClearsVF then [x, VF] else [x] }
  | .addReg x _ => { regs := [x, VF] }
  | .subReg x _ => { regs := [x, VF] }
  | .shr x _ => { regs := [x, VF] }
  | .subnReg x _ => { regs := [x, VF] }
  | .shl x _ => { regs := [x, VF] }
  | .sneReg _ _ => {}
  | .ldI _ => { i := true }
  | .jpV0 _ => {}
  | .rnd x _ => { regs := [x] }
  | .drw _ _ _ => { regs := [VF], display := true }
  | .skp _ => {}
  | .sknp _ => {}
  | .ldVxDT x => { regs := [x] }
  | .ldVxK _ => { inputWait := true }
  | .ldDTVx _ => { dt := true }
  | .ldSTVx _ => { st := true }
  | .addI _ => { i := true }
  | .ldF _ => { i := true }
  | .ldB _ => { mem := [s.ea 0, s.ea 1, s.ea 2].filter (· ≤ 0xFFF) }
  | .store x => { mem := ((List.range (x.val + 1)).map s.ea).filter (· ≤ 0xFFF), i := s.cfg.loadStoreAdvancesI }
  | .load x => { regs := (List.finRange 16).filter (· ≤ x), i := s.cfg.loadStoreAdvancesI }

/-- The frame of every instruction: it completes within `touches`, or it raises and only the record is written. -/
theorem exec_frame {i : Instr} {s t : State} (h : exec i s = .next t) :
    Frame (touches i s) s t ∨ ∃ c, t = { s with fault := some { code := c, pc := s.pc, word := encode i } } := by
  cases i
  case ret =>
    simp only [exec, execRet] at h
    by_cases hp : 0 < s.sp.val
    · rw [State.pop_eq _ hp] at h
      left; cases h; constructor <;> intros <;> first | rfl | contradiction
    · rw [State.pop_empty _ hp] at h
      right; cases h; exact ⟨_, rfl⟩
  case call nnn =>
    simp only [exec, execCall] at h
    by_cases hp : s.sp.val < 16
    · rw [State.push_eq _ _ hp] at h
      left; cases h
      constructor
      case stack => intro n hn hne; simp [touches] at hne; simp [Ne.symm hne]
      all_goals intros; first | rfl | contradiction
    · rw [State.push_full _ _ hp] at h
      right; cases h; exact ⟨_, rfl⟩
  case drw x y n =>
    simp only [exec, execDrw] at h
    cases hr : s.memReadBlock (s.ea 0) n.toNat with
    | none => rw [hr] at h; right; cases h; exact ⟨_, rfl⟩
    | some rows =>
      rw [hr] at h; left; cases h
      constructor
      case regs => intro r hr; exact State.setReg_reg_ne s VF r _ (by simpa [touches] using hr)
      all_goals intros; first | rfl | contradiction
  case load x =>
    simp only [exec, execLoad] at h
    cases hr : s.memReadBlock (s.ea 0) (x.val + 1) with
    | none => rw [hr] at h; right; cases h; exact ⟨_, rfl⟩
    | some bs =>
      have hl : bs.length ≤ x.val + 1 := by
        rcases Classical.em (s.cfg.oobRead = .any) with p | p
        · obtain ⟨bs', h1, h2, -⟩ := s.memReadBlock_any (s.ea 0) (x.val + 1) p
          rw [hr] at h1; cases h1; omega
        · have p' : s.cfg.oobRead = .fault := by cases e : s.cfg.oobRead <;> simp_all
          by_cases hin : s.ea 0 + x.val < memSize
          · rw [s.memReadBlock_inRange _ _ (Or.inr hin)] at hr; cases hr; simp
          · rw [s.memReadBlock_fault _ _ (Nat.succ_pos _) (Nat.le_of_not_lt hin) p'] at hr; cases hr
      rw [hr] at h; left; cases h
      constructor
      case regs =>
        intro r hr
        refine (State.advanceI_reg _ _ _).trans ?_
        simp only [touches, List.mem_filter, List.mem_finRange, true_and, decide_eq_true_eq, not_le] at hr
        have hr' : x.val < r.val := hr
        rw [State.setRegsFrom_reg, dif_neg (by omega)]
      case i =>
        intro hi
        refine (State.advanceI_i _ x).trans ?_
        have hi' : s.cfg.loadStoreAdvancesI = false := hi
        simp [hi']
      all_goals intros; simp
  case skp x =>
    simp only [exec, execSkp] at h
    cases hr : s.keyPressed (s.reg x) with
    | none => rw [hr] at h; right; cases h; exact ⟨_, rfl⟩
    | some d => rw [hr] at h; left; cases h; exact Frame.of_pc s _
  case sknp x =>
    simp only [exec, execSknp] at h
    cases hr : s.keyPressed (s.reg x) with
    | none => rw [hr] at h; right; cases h; exact ⟨_, rfl⟩
    | some d => rw [hr] at h; left; cases h; exact Frame.of_pc s _
  case ldB x =>
    left; cases h
    constructor
    case mem =>
      intro a ha
      apply Memory.read_writeBlock_outside
      simp [touches, State.ea, decimalDigits, memSize] at ha ⊢
      omega
    all_goals intros; rfl
  case store x =>
    left; cases h
    constructor
    case mem =>
      intro a ha
      simp only [State.advanceI_mem]
      apply Memory.read_writeBlock_outside
      simp only [touches, List.mem_filter, List.mem_map, List.mem_range, decide_eq_true_eq, not_and, not_le,
        forall_exists_index, and_imp] at ha
      rw [State.regsUpTo_length]
      simp only [memSize]
      by_contra hc
      have := ha (a - s.ea 0) (by omega) (by simp only [State.ea] at *; omega)
      omega
    case regs => intro r _; exact State.advanceI_reg _ _ _
    case i =>
      intro hi
      refine (State.advanceI_i _ x).trans ?_
      have hi' : s.cfg.loadStoreAdvancesI = false := hi
      simp [hi']
    all_goals intros; simp
  all_goals
    left; cases h
    first
    | exact Frame.of_pc s _
    | exact Frame.of_setReg s _ _ _
    | exact Frame.of_setRegFlag s _ _ _ _
    | exact Frame.of_setRegLogic s _ _ _
    | (constructor <;> intros <;> first | rfl | contradiction)

/-- Memory after an instruction: as before, or a block of writes. -/
theorem exec_mem {i : Instr} {s t : State} (h : exec i s = .next t) :
    t.mem = s.mem ∨ ∃ a bs, t.mem = s.mem.writeBlock a bs := by
  cases i
  case ldB x => right; cases h; exact ⟨_, _, rfl⟩
  case store x => right; cases h; exact ⟨_, _, State.advanceI_mem _ _⟩
  all_goals left
  case ret =>
    simp only [exec, execRet] at h
    by_cases hp : 0 < s.sp.val
    · rw [State.pop_eq _ hp] at h; cases h; rfl
    · rw [State.pop_empty _ hp] at h; cases h; rfl
  case call nnn =>
    simp only [exec, execCall] at h
    by_cases hp : s.sp.val < 16
    · rw [State.push_eq _ _ hp] at h; cases h; rfl
    · rw [State.push_full _ _ hp] at h; cases h; rfl
  case drw x y n =>
    simp only [exec, execDrw] at h
    cases hr : s.memReadBlock (s.ea 0) n.toNat <;> rw [hr] at h <;> cases h <;> rfl
  case load x =>
    simp only [exec, execLoad] at h
    cases hr : s.memReadBlock (s.ea 0) (x.val + 1) <;> rw [hr] at h <;> cases h
    · rfl
    · exact (State.advanceI_mem _ _).trans (State.setRegsFrom_mem _ _ _)
  case skp x =>
    simp only [exec, execSkp] at h
    cases hr : s.keyPressed (s.reg x) <;> rw [hr] at h <;> cases h <;> rfl
  case sknp x =>
    simp only [exec, execSknp] at h
    cases hr : s.keyPressed (s.reg x) <;> rw [hr] at h <;> cases h <;> rfl
  all_goals cases h; first | rfl | exact State.setRegLogic_mem _ _ _

end Sys2Proof.Machine
end

