-- ==== Sys2Proof/Laws/PerInstr.lean ====
section
/-! SUPPORT. Statements about every instruction as syntax, one lemma per constructor. -/

namespace Sys2Proof.Laws.EncodesItsRow

/-- The row of an instruction is one of the opcode map, and its mask and match fit the instruction's word
(30_encoding.md R80). -/
def Statement (i : Instr) : Prop := i.row ∈ opcodeRows ∧ i.row.fits (encode i) = true

theorem of_fits {i : Instr} {m v : Word} (hr : i.row = ⟨m, v⟩) (hm : (⟨m, v⟩ : OpcodeRow) ∈ opcodeRows)
    (h : encode i &&& m = v) : Statement i := by
  unfold Statement
  rw [hr]
  exact ⟨hm, by simpa [OpcodeRow.fits] using h⟩

theorem cls : Statement (.cls) :=
  of_fits rfl (by decide) rfl

theorem ret : Statement (.ret) :=
  of_fits rfl (by decide) rfl

theorem jp (nnn : Addr12) : Statement (.jp nnn) :=
  of_fits rfl (by decide) ((fits_op (v := 0x1000#16) rfl).mpr (encNNN_op _ _))

theorem call (nnn : Addr12) : Statement (.call nnn) :=
  of_fits rfl (by decide) ((fits_op (v := 0x2000#16) rfl).mpr (encNNN_op _ _))

theorem seImm (x : Reg) (kk : Byte) : Statement (.seImm x kk) :=
  of_fits rfl (by decide) ((fits_op (v := 0x3000#16) rfl).mpr (encXKK_op _ _ _))

theorem sneImm (x : Reg) (kk : Byte) : Statement (.sneImm x kk) :=
  of_fits rfl (by decide) ((fits_op (v := 0x4000#16) rfl).mpr (encXKK_op _ _ _))

theorem seReg (x y : Reg) : Statement (.seReg x y) :=
  of_fits rfl (by decide) ((fits_op_n (v := 0x5000#16) rfl).mpr ⟨encXYN_op _ _ _ _, encXYN_n _ _ _ _⟩)

theorem ldImm (x : Reg) (kk : Byte) : Statement (.ldImm x kk) :=
  of_fits rfl (by decide) ((fits_op (v := 0x6000#16) rfl).mpr (encXKK_op _ _ _))

theorem addImm (x : Reg) (kk : Byte) : Statement (.addImm x kk) :=
  of_fits rfl (by decide) ((fits_op (v := 0x7000#16) rfl).mpr (encXKK_op _ _ _))

theorem ldReg (x y : Reg) : Statement (.ldReg x y) :=
  of_fits rfl (by decide) ((fits_op_n (v := 0x8000#16) rfl).mpr ⟨encXYN_op _ _ _ _, encXYN_n _ _ _ _⟩)

theorem orReg (x y : Reg) : Statement (.orReg x y) :=
  of_fits rfl (by decide) ((fits_op_n (v := 0x8001#16) rfl).mpr ⟨encXYN_op _ _ _ _, encXYN_n _ _ _ _⟩)

theorem andReg (x y : Reg) : Statement (.andReg x y) :=
  of_fits rfl (by decide) ((fits_op_n (v := 0x8002#16) rfl).mpr ⟨encXYN_op _ _ _ _, encXYN_n _ _ _ _⟩)

theorem xorReg (x y : Reg) : Statement (.xorReg x y) :=
  of_fits rfl (by decide) ((fits_op_n (v := 0x8003#16) rfl).mpr ⟨encXYN_op _ _ _ _, encXYN_n _ _ _ _⟩)

theorem addReg (x y : Reg) : Statement (.addReg x y) :=
  of_fits rfl (by decide) ((fits_op_n (v := 0x8004#16) rfl).mpr ⟨encXYN_op _ _ _ _, encXYN_n _ _ _ _⟩)

theorem subReg (x y : Reg) : Statement (.subReg x y) :=
  of_fits rfl (by decide) ((fits_op_n (v := 0x8005#16) rfl).mpr ⟨encXYN_op _ _ _ _, encXYN_n _ _ _ _⟩)

theorem shr (x y : Reg) : Statement (.shr x y) :=
  of_fits rfl (by decide) ((fits_op_n (v := 0x8006#16) rfl).mpr ⟨encXYN_op _ _ _ _, encXYN_n _ _ _ _⟩)

theorem subnReg (x y : Reg) : Statement (.subnReg x y) :=
  of_fits rfl (by decide) ((fits_op_n (v := 0x8007#16) rfl).mpr ⟨encXYN_op _ _ _ _, encXYN_n _ _ _ _⟩)

theorem shl (x y : Reg) : Statement (.shl x y) :=
  of_fits rfl (by decide) ((fits_op_n (v := 0x800E#16) rfl).mpr ⟨encXYN_op _ _ _ _, encXYN_n _ _ _ _⟩)

theorem sneReg (x y : Reg) : Statement (.sneReg x y) :=
  of_fits rfl (by decide) ((fits_op_n (v := 0x9000#16) rfl).mpr ⟨encXYN_op _ _ _ _, encXYN_n _ _ _ _⟩)

theorem ldI (nnn : Addr12) : Statement (.ldI nnn) :=
  of_fits rfl (by decide) ((fits_op (v := 0xA000#16) rfl).mpr (encNNN_op _ _))

theorem jpV0 (nnn : Addr12) : Statement (.jpV0 nnn) :=
  of_fits rfl (by decide) ((fits_op (v := 0xB000#16) rfl).mpr (encNNN_op _ _))

theorem rnd (x : Reg) (kk : Byte) : Statement (.rnd x kk) :=
  of_fits rfl (by decide) ((fits_op (v := 0xC000#16) rfl).mpr (encXKK_op _ _ _))

theorem drw (x y : Reg) (n : Nibble) : Statement (.drw x y n) :=
  of_fits rfl (by decide) ((fits_op (v := 0xD000#16) rfl).mpr (encXYN_op _ _ _ _))

theorem skp (x : Reg) : Statement (.skp x) :=
  of_fits rfl (by decide) ((fits_op_kk (v := 0xE09E#16) rfl).mpr ⟨encXKK_op _ _ _, encXKK_kk _ _ _⟩)

theorem sknp (x : Reg) : Statement (.sknp x) :=
  of_fits rfl (by decide) ((fits_op_kk (v := 0xE0A1#16) rfl).mpr ⟨encXKK_op _ _ _, encXKK_kk _ _ _⟩)

theorem ldVxDT (x : Reg) : Statement (.ldVxDT x) :=
  of_fits rfl (by decide) ((fits_op_kk (v := 0xF007#16) rfl).mpr ⟨encXKK_op _ _ _, encXKK_kk _ _ _⟩)

theorem ldVxK (x : Reg) : Statement (.ldVxK x) :=
  of_fits rfl (by decide) ((fits_op_kk (v := 0xF00A#16) rfl).mpr ⟨encXKK_op _ _ _, encXKK_kk _ _ _⟩)

theorem ldDTVx (x : Reg) : Statement (.ldDTVx x) :=
  of_fits rfl (by decide) ((fits_op_kk (v := 0xF015#16) rfl).mpr ⟨encXKK_op _ _ _, encXKK_kk _ _ _⟩)

theorem ldSTVx (x : Reg) : Statement (.ldSTVx x) :=
  of_fits rfl (by decide) ((fits_op_kk (v := 0xF018#16) rfl).mpr ⟨encXKK_op _ _ _, encXKK_kk _ _ _⟩)

theorem addI (x : Reg) : Statement (.addI x) :=
  of_fits rfl (by decide) ((fits_op_kk (v := 0xF01E#16) rfl).mpr ⟨encXKK_op _ _ _, encXKK_kk _ _ _⟩)

theorem ldF (x : Reg) : Statement (.ldF x) :=
  of_fits rfl (by decide) ((fits_op_kk (v := 0xF029#16) rfl).mpr ⟨encXKK_op _ _ _, encXKK_kk _ _ _⟩)

theorem ldB (x : Reg) : Statement (.ldB x) :=
  of_fits rfl (by decide) ((fits_op_kk (v := 0xF033#16) rfl).mpr ⟨encXKK_op _ _ _, encXKK_kk _ _ _⟩)

theorem store (x : Reg) : Statement (.store x) :=
  of_fits rfl (by decide) ((fits_op_kk (v := 0xF055#16) rfl).mpr ⟨encXKK_op _ _ _, encXKK_kk _ _ _⟩)

theorem load (x : Reg) : Statement (.load x) :=
  of_fits rfl (by decide) ((fits_op_kk (v := 0xF065#16) rfl).mpr ⟨encXKK_op _ _ _, encXKK_kk _ _ _⟩)

end Sys2Proof.Laws.EncodesItsRow
end

