-- ==== Sys2Proof/Tests/Slice0.lean ====
section
/-! SUPPORT. Tests: words written out bit by bit from 30_encoding.md, single steps with results from 95_test_vectors.md
(W and V numbers are its vectors), operands out of range, and a witness for the hypotheses of every statement. -/

namespace Sys2Proof.Tests

open Sys2Proof Sys2Proof.Machine

/-! ## Helpers -/

/-- The construction state with some registers and bytes of memory set. -/
def setup (v : List (Reg × Byte)) (i : Word) (bytes : List (Nat × Byte)) : State :=
  let s := v.foldl (fun s p => s.setReg p.1 p.2) { State.reset with i := i }
  { s with mem := bytes.foldl (fun m c => m.write c.1 c.2) s.mem }

/-- What `f` reads on the state after one step, if the step goes on. -/
def after {α : Type} (s : State) (f : State → α) : Option α :=
  match step s with
  | .next t => some (f t)
  | .fault _ => none
  | .refused _ => none

/-- One step of `s` with the word `w` placed where it fetches. -/
def run {α : Type} (s : State) (w : Nat) (f : State → α) : Option α := after (s.withFetchWord 16 w) f

/-- The default parameters but for one. -/
def anyReads : Config := { Config.default with oobRead := .any }

/-- `s` with other parameters. -/
def withCfg (s : State) (cfg : Config) : State := { s with cfg := cfg }

/-- The keypad with exactly the listed keys pressed. -/
def keys (l : List Nat) : Vector Bool 16 := Vector.ofFn fun k => l.contains k.val

/-! ## Operands out of range are refused (30_encoding.md R71, R73) -/

theorem test_regOperand : regOperand 15 = some 15 ∧ regOperand 16 = none := by decide
theorem test_byteOperand : byteOperand 255 = some 0xFF#8 ∧ byteOperand 256 = none := by decide
theorem test_addrOperand : addrOperand 4095 = some 0xFFF#12 ∧ addrOperand 4096 = none := by decide
theorem test_rowsOperand : rowsOperand 15 = some 0xF#4 ∧ rowsOperand 16 = none := by decide

/-! ## Every row's word, written out bit by bit (30_encoding.md R80) -/

theorem test_decode_fixed :
    decode 0b0000000011100000#16 = .instr .cls ∧ decode 0b0000000011101110#16 = .instr .ret := by decide

theorem test_decode_nnn :
    decode 0b0001101010111100#16 = .instr (.jp 0xABC#12) ∧ decode 0b0010001000010000#16 = .instr (.call 0x210#12) ∧
    decode 0b1010000100100011#16 = .instr (.ldI 0x123#12) ∧ decode 0b1011001100000000#16 = .instr (.jpV0 0x300#12) := by
  decide

theorem test_decode_xkk :
    decode 0b0011001101000010#16 = .instr (.seImm 3 0x42#8) ∧ decode 0b0100001100000000#16 = .instr (.sneImm 3 0#8) ∧
    decode 0b0110101001011100#16 = .instr (.ldImm 10 0x5C#8) ∧ decode 0b0111000100000010#16 = .instr (.addImm 1 2#8) ∧
    decode 0b1100001100001111#16 = .instr (.rnd 3 0x0F#8) := by
  decide

theorem test_decode_xy :
    decode 0b0101000100100000#16 = .instr (.seReg 1 2) ∧ decode 0b1000000100100000#16 = .instr (.ldReg 1 2) ∧
    decode 0b1000000100100001#16 = .instr (.orReg 1 2) ∧ decode 0b1000000100100010#16 = .instr (.andReg 1 2) ∧
    decode 0b1000000100100011#16 = .instr (.xorReg 1 2) ∧ decode 0b1000000100100100#16 = .instr (.addReg 1 2) := by
  decide

theorem test_decode_xy_rest :
    decode 0b1000000100100101#16 = .instr (.subReg 1 2) ∧ decode 0b1000000100100110#16 = .instr (.shr 1 2) ∧
    decode 0b1000000100100111#16 = .instr (.subnReg 1 2) ∧ decode 0b1000000100101110#16 = .instr (.shl 1 2) ∧
    decode 0b1001000100100000#16 = .instr (.sneReg 1 2) ∧ decode 0b1101000100101111#16 = .instr (.drw 1 2 15#4) := by
  decide

theorem test_decode_x :
    decode 0b1110010110011110#16 = .instr (.skp 5) ∧ decode 0b1110010110100001#16 = .instr (.sknp 5) ∧
    decode 0b1111001100000111#16 = .instr (.ldVxDT 3) ∧ decode 0b1111001100001010#16 = .instr (.ldVxK 3) ∧
    decode 0b1111001000010101#16 = .instr (.ldDTVx 2) ∧ decode 0b1111001000011000#16 = .instr (.ldSTVx 2) := by
  decide

theorem test_decode_x_rest :
    decode 0b1111010000011110#16 = .instr (.addI 4) ∧ decode 0b1111001000101001#16 = .instr (.ldF 2) ∧
    decode 0b1111000000110011#16 = .instr (.ldB 0) ∧ decode 0b1111001001010101#16 = .instr (.store 2) ∧
    decode 0b1111001001100101#16 = .instr (.load 2) := by
  decide

/-- V10 to V15. -/
theorem test_decode_unknown :
    ([0x0000#16, 0x0FFF#16, 0x00E1#16, 0x01E0#16, 0x01EE#16, 0x5121#16, 0x912F#16, 0x8008#16, 0x800F#16, 0xE000#16, 0xE0A0#16,
      0xF008#16, 0xF0FF#16].all fun w => decode w == .unknown w) = true := by decide

/-- The bytes of an instruction, in the order memory holds them (20_memory.md R56). -/
theorem test_bytes : decodeBytes 0x12#8 0x34#8 = .instr (.jp 0x234#12) ∧ encodeBytes (.jp 0x234#12) = [0x12#8, 0x34#8] := by
  decide

theorem test_table_word :
    decodeTableWord 16 0xD12F = some (.drw 1 2 15#4) ∧ decodeTableWord 16 0x5121 = none ∧ opcodeRows.length = 34 := by decide

/-! ## The cycle -/

/-- V1: the last legal fetch. -/
theorem test_fetch_last : run { State.reset with pc := 0xFFE#16 } 0x1200 (·.pc) = some 0x200#16 := by decide

/-- V2. -/
theorem test_fetch_fault :
    after { State.reset with pc := 0xFFF#16, dt := 5#8 } (fun t => (t.fault, t.dt, t.pc)) =
      some (some ⟨.fetchOutOfRange, 0xFFF#16, 0#16⟩, 4#8, 0xFFF#16) := by decide

/-- V4. -/
theorem test_faulted :
    after { State.reset with fault := some ⟨.stackUnderflow, 0x200#16, 0xEE#16⟩, dt := 5#8, st := 3#8, frameDirty := true }
      (fun t => (t.dt, t.st, t.frameDirty, t.pc)) = some (5#8, 3#8, true, 0x200#16) := by decide

/-- V6, V135, V3: any instruction clears the flag and ticks both timers; an odd address is fetched from. -/
theorem test_cycle :
    run { State.reset with frameDirty := true, dt := 1#8, st := 255#8, pc := 0x201#16 } 0x6012
      (fun t => (t.frameDirty, t.dt, t.st, t.pc, t.reg 0)) = some (false, 0#8, 254#8, 0x203#16, 0x12#8) := by decide

/-- V10: an unknown word, and the first step from reset with nothing loaded. -/
theorem test_unknown :
    after State.reset (fun t => (t.pc, t.reg VF, t.i, t.fault)) = some (0x202#16, 0#8, 0#16, none) := by decide

/-! ## Control flow -/

theorem test_jp_V20 : run State.reset 0x1ABC (·.pc) = some 0xABC#16 := by decide

theorem test_call_V22 :
    run { State.reset with pc := 0x204#16 } 0x2210 (fun t => (t.stack[0], t.sp, t.pc)) = some (0x206#16, 1, 0x210#16) := by
  decide

theorem test_call_V23 :
    run { State.reset with pc := 0x300#16, sp := 16 } 0x2400 (fun t => (t.fault, t.sp, t.pc)) =
      some (some ⟨.stackOverflow, 0x300#16, 0x2400#16⟩, 16, 0x300#16) := by decide

theorem test_ret_V24 :
    run { State.reset with pc := 0x210#16, sp := 1, stack := State.reset.stack.set 0 0x206#16 } 0x00EE
      (fun t => (t.pc, t.sp, t.stack[0])) = some (0x206#16, 0, 0x206#16) := by decide

theorem test_ret_V25 : run State.reset 0x00EE (·.fault) = some (some ⟨.stackUnderflow, 0x200#16, 0xEE#16⟩) := by decide

theorem test_jpV0_V27 : run (setup [(0, 0x10#8), (3, 0x77#8)] 0#16 []) 0xB300 (·.pc) = some 0x310#16 := by decide
theorem test_jpV0_V28 : run (setup [(0, 0xFF#8)] 0#16 []) 0xBFFF (·.pc) = some 0x10FE#16 := by decide
theorem test_seImm_V29 : run (setup [(3, 0x42#8)] 0#16 []) 0x3342 (·.pc) = some 0x204#16 := by decide
theorem test_seImm_V30 : run (setup [(3, 0x42#8)] 0#16 []) 0x3343 (·.pc) = some 0x202#16 := by decide
theorem test_sneImm_V31 : run (setup [(3, 0x42#8)] 0#16 []) 0x4342 (·.pc) = some 0x202#16 := by decide
theorem test_sneImm_V32 : run (setup [(3, 0x42#8)] 0#16 []) 0x4300 (·.pc) = some 0x204#16 := by decide
theorem test_seReg_V33 : run (setup [(1, 7#8), (2, 7#8)] 0#16 []) 0x5120 (·.pc) = some 0x204#16 := by decide
theorem test_seReg_V34 : run (setup [(1, 7#8), (2, 8#8)] 0#16 []) 0x5120 (·.pc) = some 0x202#16 := by decide
theorem test_sneReg_V36 : run (setup [(1, 7#8), (2, 8#8)] 0#16 []) 0x9120 (·.pc) = some 0x204#16 := by decide
theorem test_sneReg_V38 : run State.reset 0x9550 (·.pc) = some 0x202#16 := by decide

/-! ## Registers and arithmetic -/

/-- `V1` and `VF` after a step. -/
def v1f (t : State) : Byte × Byte := (t.reg 1, t.reg VF)

theorem test_ldImm_V50 : run State.reset 0x6A5C (·.reg 10) = some 0x5C#8 := by decide
theorem test_addImm_V51 : run (setup [(1, 0xFF#8), (VF, 0x77#8)] 0#16 []) 0x7102 v1f = some (1#8, 0x77#8) := by decide
theorem test_ldReg_V53 : run (setup [(1, 3#8), (2, 9#8)] 0#16 []) 0x8120 (fun t => (t.reg 1, t.reg 2)) = some (9#8, 9#8) := by
  decide
theorem test_or_V54 : run (setup [(1, 12#8), (2, 10#8), (VF, 0x55#8)] 0#16 []) 0x8121 v1f = some (14#8, 0x55#8) := by decide
theorem test_or_V76 :
    run (withCfg (setup [(1, 12#8), (2, 10#8), (VF, 0x55#8)] 0#16 []) { Config.default with logicClearsVF := true }) 0x8121 v1f =
      some (14#8, 0#8) := by decide
theorem test_and_V55 : run (setup [(1, 12#8), (2, 10#8), (VF, 0x55#8)] 0#16 []) 0x8122 v1f = some (8#8, 0x55#8) := by decide
theorem test_xor_V56 : run (setup [(1, 12#8), (2, 10#8), (VF, 0x55#8)] 0#16 []) 0x8123 v1f = some (6#8, 0x55#8) := by decide
theorem test_add_W2 :
    run (setup [(1, 0xF0#8), (2, 0x20#8)] 0#16 []) 0x8124 v1f = some (0x10#8, 1#8) ∧
    run (setup [(1, 0x80#8), (2, 0x7F#8)] 0#16 []) 0x8124 v1f = some (0xFF#8, 0#8) := by decide
theorem test_add_V58_V59 :
    run (setup [(VF, 0xFF#8), (1, 1#8)] 0#16 []) 0x8F14 (·.reg VF) = some 1#8 ∧
    run (setup [(VF, 1#8), (1, 1#8)] 0#16 []) 0x8F14 (·.reg VF) = some 0#8 := by decide
theorem test_sub_W3 :
    run (setup [(1, 5#8), (2, 10#8)] 0#16 []) 0x8125 v1f = some (0xFB#8, 0#8) ∧
    run (setup [(1, 7#8), (2, 7#8)] 0#16 []) 0x8125 v1f = some (0#8, 0#8) := by decide
theorem test_sub_V61 : run (setup [(VF, 5#8), (1, 3#8)] 0#16 []) 0x8F15 (·.reg VF) = some 1#8 := by decide
theorem test_shr_V62_V64 :
    run (setup [(1, 5#8)] 0#16 []) 0x8106 v1f = some (2#8, 1#8) ∧
    run (setup [(1, 4#8), (2, 0xFF#8)] 0#16 []) 0x8126 v1f = some (2#8, 0#8) := by decide
theorem test_shr_V77 :
    run (withCfg (setup [(1, 4#8), (2, 0xFF#8)] 0#16 []) { Config.default with shiftReadsVy := true }) 0x8126 v1f =
      some (0x7F#8, 1#8) := by decide
theorem test_subn_V68_V69 :
    run (setup [(1, 10#8), (2, 5#8)] 0#16 []) 0x8127 v1f = some (0xFB#8, 0#8) ∧
    run (setup [(1, 7#8), (2, 7#8)] 0#16 []) 0x8127 v1f = some (0#8, 0#8) := by decide
theorem test_shl_V70_V71 :
    run (setup [(1, 0x81#8)] 0#16 []) 0x810E v1f = some (2#8, 1#8) ∧
    run (setup [(1, 0x40#8)] 0#16 []) 0x810E v1f = some (0x80#8, 0#8) := by decide
theorem test_shl_V78 :
    run (withCfg (setup [(1, 4#8), (2, 0x81#8)] 0#16 []) { Config.default with shiftReadsVy := true }) 0x812E v1f =
      some (2#8, 1#8) := by decide
theorem test_rnd_V73 : run { State.reset with rnd := some 0xAB#8 } 0xC30F (·.reg 3) = some 0x0B#8 := by decide

/-! ## Index register and memory -/

/-- Three bytes from `a` on after a step. -/
def three (a : Nat) (t : State) : List Byte := [t.mem.read a, t.mem.read (a + 1), t.mem.read (a + 2)]

theorem test_ldI_V80 : run State.reset 0xA123 (·.i) = some 0x123#16 := by decide
theorem test_addI_V81 :
    run (setup [(4, 0x10#8), (VF, 9#8)] 0x300#16 []) 0xF41E (fun t => (t.i, t.reg VF)) = some (0x310#16, 9#8) := by decide
theorem test_addI_V82_V83 :
    run (setup [(0, 1#8)] 0xFFF#16 []) 0xF01E (·.i) = some 0x1000#16 ∧
    run (setup [(0, 2#8)] 0xFFFF#16 []) 0xF01E (·.i) = some 1#16 := by decide
theorem test_ldF_V84_V87 :
    run (setup [(2, 10#8)] 0#16 []) 0xF229 (·.i) = some 0x32#16 ∧
    run (setup [(2, 0xFF#8)] 0#16 []) 0xF229 (·.i) = some 0x4FB#16 := by decide
theorem test_ldB_V88 : run (setup [(0, 254#8)] 0x300#16 []) 0xF033 (three 0x300) = some [2#8, 5#8, 4#8] := by decide
theorem test_ldB_V92 :
    run (setup [(0, 123#8)] 0xFFE#16 []) 0xF033 (fun t => (three 0xFFE t, t.mem.read 0, t.fault)) =
      some ([1#8, 2#8, 0#8], 0xF0#8, none) := by decide
theorem test_store_W9 :
    run (setup [(0, 0xAA#8), (1, 0xBB#8), (2, 0xCC#8)] 0xFFE#16 []) 0xF255 (fun t => (three 0xFFE t, t.mem.read 0, t.fault)) =
      some ([0xAA#8, 0xBB#8, 0#8], 0xF0#8, none) := by decide
theorem test_store_V94_V102 :
    run (setup [(0, 1#8), (1, 2#8), (2, 3#8)] 0x400#16 []) 0xF255 (fun t => (three 0x400 t, t.i)) =
      some ([1#8, 2#8, 3#8], 0x400#16) ∧
    run (withCfg (setup [(0, 1#8), (1, 2#8), (2, 3#8)] 0x400#16 []) { Config.default with loadStoreAdvancesI := true }) 0xF255
      (fun t => (three 0x400 t, t.i)) = some ([1#8, 2#8, 3#8], 0x403#16) := by decide
theorem test_load_V97 :
    run (setup [] 0x300#16 [(0x300, 2#8), (0x301, 5#8), (0x302, 4#8)]) 0xF265
      (fun t => (t.reg 0, t.reg 1, t.reg 2, t.i)) = some (2#8, 5#8, 4#8, 0x300#16) := by decide
theorem test_load_V99 :
    run (setup [(0, 0x11#8), (1, 0x22#8)] 0xFFF#16 []) 0xF165 (fun t => (t.fault, t.reg 0, t.reg 1, t.pc)) =
      some (some ⟨.dataReadOutOfRange, 0x200#16, 0xF165#16⟩, 0x11#8, 0x22#8, 0x200#16) := by decide

/-! ## Display -/

/-- The pixels of row `r` that are 1. -/
def lit (r : Fin 32) (t : State) : List Nat := ((List.finRange 64).filter (fun c => t.fb.pixel r c)).map Fin.val

theorem test_cls_V110 :
    run { (setup [(VF, 0x42#8)] 0#16 []) with fb := State.reset.fb.flip 7 9 } 0x00E0
      (fun t => (t.fb.pixel 7 9, t.frameDirty, t.reg VF)) = some (false, true, 0x42#8) := by decide

/-- W4: the rows 0x3C and 0x42 at column 10, the pre-set pixel untouched. -/
theorem test_drw_W4 :
    run { (setup [(0, 10#8), (1, 4#8)] 0x300#16 [(0x300, 0x3C#8), (0x301, 0x42#8)]) with fb := State.reset.fb.flip 4 11 } 0xD012
      (fun t => (lit 4 t, lit 5 t, t.reg VF, t.frameDirty, t.pc)) =
      some ([11, 12, 13, 14, 15], [11, 16], 0#8, true, 0x202#16) := by decide

/-- V113, V114: wrapped on both axes. -/
theorem test_drw_wraps :
    run (setup [(0, 60#8), (1, 0#8)] 0x300#16 [(0x300, 0xFF#8)]) 0xD011 (lit 0) = some [0, 1, 2, 3, 60, 61, 62, 63] ∧
    run (setup [(0, 0#8), (1, 30#8)] 0x300#16 [(0x300, 0x80#8), (0x301, 0x80#8), (0x302, 0x80#8)]) 0xD013
      (fun t => (lit 30 t, lit 31 t, lit 0 t)) = some ([0], [0], [0]) := by decide

/-- V117: one pixel set, one cleared. -/
theorem test_drw_collision :
    run { (setup [(0, 9#8), (1, 5#8)] 0x300#16 [(0x300, 0xC0#8)]) with fb := State.reset.fb.flip 5 10 } 0xD011
      (fun t => (lit 5 t, t.reg VF)) = some ([9], 1#8) := by decide

/-- V119, V123: `n = 0`, and `VF` as a coordinate. -/
theorem test_drw_VF :
    run (setup [(VF, 1#8)] 0#16 []) 0xD010 (fun t => (lit 1 t, t.reg VF, t.frameDirty)) = some ([], 0#8, true) ∧
    run (setup [(VF, 2#8)] 0x300#16 [(0x300, 0x80#8)]) 0xDF11 (fun t => (lit 0 t, t.reg VF)) = some ([2], 0#8) := by decide

/-- V122. -/
theorem test_drw_fault :
    run { (setup [(VF, 7#8)] 0xFF2#16 []) with frameDirty := true } 0xD01F (fun t => (t.fault, lit 0 t, t.reg VF, t.frameDirty)) =
      some (some ⟨.dataReadOutOfRange, 0x200#16, 0xD01F#16⟩, [], 7#8, false) := by decide

/-! ## Keypad and timers -/

theorem test_ldVxDT_V130 : run { State.reset with dt := 5#8 } 0xF307 (fun t => (t.reg 3, t.dt)) = some (4#8, 4#8) := by decide
theorem test_ldDTVx_V132 : run { (setup [(2, 3#8)] 0#16 []) with dt := 10#8 } 0xF215 (·.dt) = some 3#8 := by decide
theorem test_ldSTVx_V133_V134 :
    run (setup [(2, 1#8)] 0#16 []) 0xF218 (fun t => (t.st, t.outputs.tone)) = some (1#8, true) ∧
    run { State.reset with st := 4#8 } 0xF218 (fun t => (t.st, t.outputs.tone)) = some (0#8, false) := by decide
theorem test_skp_V136_V137 :
    run { (setup [(5, 12#8)] 0#16 []) with key := keys [12] } 0xE59E (·.pc) = some 0x204#16 ∧
    run (setup [(5, 12#8)] 0#16 []) 0xE59E (·.pc) = some 0x202#16 := by decide
theorem test_skp_V140 :
    run (setup [(5, 16#8)] 0#16 []) 0xE59E (·.fault) = some (some ⟨.keyIndexOutOfRange, 0x200#16, 0xE59E#16⟩) := by decide
theorem test_sknp_V138_V139 :
    run { (setup [(5, 12#8)] 0#16 []) with key := keys [12] } 0xE5A1 (·.pc) = some 0x202#16 ∧
    run (setup [(5, 12#8)] 0#16 []) 0xE5A1 (·.pc) = some 0x204#16 := by decide
theorem test_ldVxK_V141 :
    run { (setup [(3, 0x33#8)] 0#16 []) with pc := 0x204#16, key := keys [1] } 0xF30A (fun t => (t.inputWait, t.pc, t.reg 3)) =
      some (some 3, 0x206#16, 0x33#8) := by decide
theorem test_wait_V142_V143 :
    after { State.reset with inputWait := some 3, pc := 0x206#16, dt := 5#8 } (fun t => (t.inputWait, t.dt, t.pc)) =
      some (some 3, 4#8, 0x206#16) ∧
    after { State.reset with inputWait := some 3, pc := 0x206#16, key := keys [9, 3] } (fun t => (t.inputWait, t.reg 3, t.pc)) =
      some (none, 3#8, 0x206#16) := by decide

/-- V145, V146: the other values of TICK_WHILE_WAITING and RESOLVE_THEN_EXECUTE. -/
theorem test_wait_V145_V146 :
    after (withCfg { State.reset with inputWait := some 3, dt := 5#8 } { Config.default with tickWhileWaiting := false })
      (fun t => (t.inputWait, t.dt)) = some (some 3, 5#8) ∧
    after (withCfg { (setup [] 0#16 [(0x206, 0x64#8), (0x207, 7#8)]) with inputWait := some 3, pc := 0x206#16, key := keys [2] }
        { Config.default with resolveThenExecute := true })
      (fun t => (t.inputWait, t.reg 3, t.reg 4, t.pc)) = some (none, 2#8, 7#8, 0x208#16) := by decide

/-- The order of 40_cycle.md R100 (log 29): a resolving cycle that goes on and faults keeps what its wait phase wrote. -/
theorem test_wait_then_fault :
    after (withCfg { (setup [] 0#16 [(0x206, 0#8), (0x207, 0xEE#8)]) with inputWait := some 3, pc := 0x206#16, key := keys [2] }
        { Config.default with resolveThenExecute := true })
      (fun t => (t.fault, t.inputWait, t.reg 3, t.pc)) =
      some (some ⟨.stackUnderflow, 0x206#16, 0xEE#16⟩, none, 2#8, 0x206#16) := by decide

/-! ## Witnesses: the hypotheses of each statement, met together, each clause at a boundary of its range -/

theorem witness_EncodeOfDecodedIsTheWord : decode 0x8126#16 = .instr (.shr 1 2) := by decide

theorem witness_DecodeFollowsTheOpcodeMap :
    decode 0x00E0#16 = .instr .cls ∧ (⟨0xFFFF#16, 0x00E0#16⟩ ∈ opcodeRows ∧ OpcodeRow.fits ⟨0xFFFF#16, 0x00E0#16⟩ 0x00E0#16) ∧
    ∀ r ∈ opcodeRows, r.fits 0x01E0#16 = false := by decide

/-- A known word beside an unknown one in each of the families 0, 5, 8, 9, E and F. -/
theorem witness_UnknownWordsOnlyAdvanceThePc :
    decode 0x00EF#16 = .unknown 0x00EF#16 ∧ decode 0x5001#16 = .unknown 0x5001#16 ∧ decode 0x8008#16 = .unknown 0x8008#16 ∧
    decode 0x900F#16 = .unknown 0x900F#16 ∧ decode 0xE09F#16 = .unknown 0xE09F#16 ∧ decode 0xF064#16 = .unknown 0xF064#16 ∧
    decode 0xF065#16 = .instr (.load 0) := by decide

/-- The construction state about to execute the word `w`. -/
def ready (w : Nat) : State := State.reset.withFetchWord 16 w

theorem witness_StepRunsTheDecodedInstruction :
    (let s := State.withFetchWord { State.reset with pc := 0xFFE#16 } 16 0x1200
     s.Running ∧ s.FetchInRange ∧ decode s.wordAtPc = .instr (.jp 0x200#12)) ∧
    (State.reset.Running ∧ State.reset.FetchInRange ∧ decode State.reset.wordAtPc = .unknown 0#16) := by decide

/-- The construction state waiting for a key into register `r`, under any parameters. -/
def waiting (r : Reg) (cfg : Config) (down : List Nat) : State :=
  { State.reset with inputWait := some r, cfg := cfg, key := keys down }

/-- No key; key 15 alone; keys 0 and 15; and a wait that goes on to execute. -/
theorem witness_WaitPhaseStoresTheLeastKey :
    (let s := waiting 15 Config.default []
     s.Awaiting 15 ∧ ∀ k : Fin 16, s.key[k.val] = false) ∧
    (let s := waiting 0 Config.default [15]
     s.Awaiting 0 ∧ s.key[15] = true ∧ (∀ j : Fin 16, j < 15 → s.key[j.val] = false) ∧ s.cfg.resolveThenExecute = false) ∧
    (let s := waiting 3 { Config.default with resolveThenExecute := true, tickWhileWaiting := false } [15, 0]
     s.Awaiting 3 ∧ s.key[0] = true ∧ (∀ j : Fin 16, j < 0 → s.key[j.val] = false) ∧
       s.cfg.resolveThenExecute = true ∧ s.FetchInRange) := by decide

theorem witness_KeyWaitLastsUntilAKey :
    let s := waiting 5 Config.default []
    let inputs : List HostInput := [⟨keys [], none⟩, ⟨keys [], some 7#8⟩]
    let last : HostInput := ⟨keys [0, 9], none⟩
    s.Awaiting 5 ∧ s.cfg.resolveThenExecute = false ∧ (∀ inp ∈ inputs, ∀ k : Fin 16, inp.keypad[k.val] = false) ∧
      last.keypad[0] = true := by decide

theorem witness_FetchBeyondMemoryFaults :
    let s := { State.reset with pc := 0xFFF#16 }
    s.Running ∧ 0xFFF ≤ s.pc.toNat ∧ s.cfg.oobRead = .fault := by decide

/-- The clause of the one existing byte, at `pc = 0xFFF`, and a `pc` beyond it. -/
theorem witness_FetchBeyondMemoryMayBeFree :
    (let s := withCfg { State.reset with pc := 0xFFF#16 } anyReads
     s.Running ∧ 0xFFF ≤ s.pc.toNat ∧ s.cfg.oobRead = .any ∧ s.pc.toNat = 0xFFF) ∧
    (let s := withCfg { State.reset with pc := 0xFFFF#16 } anyReads
     s.Running ∧ 0xFFF ≤ s.pc.toNat ∧ s.cfg.oobRead = .any) := by decide

theorem witness_FaultedChangesNothing : ({ State.reset with fault := some ⟨.stackOverflow, 0#16, 0#16⟩ } : State).Faulted := by
  decide

theorem witness_InputsAreNeverWritten : ∃ t, step State.reset = .next t := ⟨_, rfl⟩

theorem witness_TimersTickOncePerCycle :
    ((ready 0xF215).Fetches (.ldDTVx 2) ∧ (ready 0xF318).Fetches (.ldSTVx 3) ∧ (ready 0x00E0).Fetches .cls) ∧
    (∃ t, step (ready 0xF215) = .next t) ∧ (∃ t, step (ready 0xF318) = .next t) ∧ ∃ t, step (ready 0x00E0) = .next t :=
  ⟨by decide, ⟨_, rfl⟩, ⟨_, rfl⟩, ⟨_, rfl⟩⟩

/-- A cycle that draws, one that does not, and one that faults. -/
theorem witness_FrameDirtyTellsADraw :
    ((ready 0x00E0).Fetches .cls ∧ (ready 0x1200).Fetches (.jp 0x200#12) ∧ (ready 0x00EE).Fetches .ret) ∧
    (∃ t, step (ready 0x00E0) = .next t ∧ t.Safe) ∧ (∃ t, step (ready 0x1200) = .next t ∧ t.Safe) ∧
    ∃ t, step (ready 0x00EE) = .next t ∧ t.Faulted :=
  ⟨by decide, ⟨_, rfl, rfl⟩, ⟨_, rfl, rfl⟩, ⟨_, rfl, Option.some_ne_none _⟩⟩

/-- One meaning that completes, and one that raises each of the codes 1, 2, 4 and 5. -/
theorem witness_FaultsArePrecise :
    State.reset.Safe ∧ (∃ t, exec .cls State.reset = .next t ∧ t.Safe) ∧
    (∃ t, exec (.call 0#12) { State.reset with sp := 16 } = .next t ∧ t.Faulted) ∧
    (∃ t, exec .ret State.reset = .next t ∧ t.Faulted) ∧
    (∃ t, exec (.load 1) { State.reset with i := 0xFFF#16 } = .next t ∧ t.Faulted) ∧
    ∃ t, exec (.skp 0) (State.reset.setReg 0 16#8) = .next t ∧ t.Faulted :=
  ⟨rfl, ⟨_, rfl, rfl⟩, ⟨_, rfl, Option.some_ne_none _⟩, ⟨_, rfl, Option.some_ne_none _⟩, ⟨_, rfl, Option.some_ne_none _⟩,
    ⟨_, rfl, Option.some_ne_none _⟩⟩

theorem witness_OnlyCallAndReturnUseTheStack :
    (∃ t, exec (.call 0x210#12) State.reset = .next t ∧ t.stack ≠ State.reset.stack ∧ t.sp ≠ State.reset.sp) ∧
    ∃ t, exec .ret { State.reset with sp := 16 } = .next t ∧ t.sp ≠ 16 :=
  ⟨⟨_, rfl, by decide, by decide⟩, ⟨_, rfl, by decide⟩⟩

theorem witness_OnlyStoresWriteMemoryOnlyIndexOpsWriteI :
    (∃ t, exec (.store 0) State.reset = .next t ∧ t.mem ≠ State.reset.mem) ∧
    (∃ t, exec (.ldI 0xFFF#12) State.reset = .next t ∧ t.i ≠ State.reset.i) ∧
    ∃ t, exec (.load 0) (withCfg State.reset { Config.default with loadStoreAdvancesI := true }) = .next t ∧ t.i ≠ State.reset.i :=
  ⟨⟨_, rfl, by decide⟩, ⟨_, rfl, by decide⟩, ⟨_, rfl, by decide⟩⟩

theorem witness_OnlyTheirInstructionsWriteTimersDisplayAndLatch :
    (∃ t, exec (.ldDTVx 0) (State.reset.setReg 0 1#8) = .next t ∧ t.dt ≠ State.reset.dt) ∧
    (∃ t, exec (.ldSTVx 0) (State.reset.setReg 0 1#8) = .next t ∧ t.st ≠ State.reset.st) ∧
    (∃ t, exec .cls State.reset = .next t ∧ t.frameDirty ≠ State.reset.frameDirty) ∧
    ∃ t, exec (.ldVxK 0) State.reset = .next t ∧ t.inputWait ≠ State.reset.inputWait :=
  ⟨⟨_, rfl, by decide⟩, ⟨_, rfl, by decide⟩, ⟨_, rfl, by decide⟩, ⟨_, rfl, by decide⟩⟩

/-- A flag-setting instruction, a load into another register, a logic instruction and a jump. -/
theorem witness_FlagInstructionsAloneSetVF :
    (∃ t, exec (.addReg 15 15) State.reset = .next t ∧ t.Safe) ∧
    (∃ t, exec (.ldImm 14 7#8) State.reset = .next t ∧ t.Safe ∧ (14 : Reg) ≠ VF) ∧
    (∃ t, exec (.xorReg 14 15) State.reset = .next t ∧ t.Safe) ∧ ∃ t, exec (.jp 0#12) State.reset = .next t ∧ t.Safe :=
  ⟨⟨_, rfl, rfl⟩, ⟨_, rfl, rfl, by decide⟩, ⟨_, rfl, rfl⟩, ⟨_, rfl, rfl⟩⟩

/-- The mask and match of a row, met by one of its words. -/
theorem witness_DecodesAs :
    0x1ABC#16 &&& 0xF000#16 = 0x1000#16 ∧ 0x512F#16 &&& 0xF00F#16 ≠ 0x5000#16 ∧ 0x5120#16 &&& 0xF00F#16 = 0x5000#16 ∧
    0xFF65#16 &&& 0xF0FF#16 = 0xF065#16 := by decide

theorem witness_CallPushesTheReturnAddress :
    ({ State.reset with sp := 15 } : State).sp.val < 16 ∧ ({ State.reset with sp := 16 } : State).sp = 16 := by decide

theorem witness_ReturnPopsTheReturnAddress : 0 < ({ State.reset with sp := 16 } : State).sp.val ∧ State.reset.sp = 0 := by decide

/-- The unknown words of families 5 and 9. -/
theorem witness_SkipsOnRegisters : Word.n 0x5121#16 ≠ 0 ∧ Word.op 0x5121#16 = 5 ∧ Word.op 0x912F#16 = 9 := by decide

theorem witness_CallThenReturnComesBack :
    let s := { (State.withFetchWord { (setup [] 0#16 [(0x211, 0xEE#8)]) with pc := 0x204#16 } 16 0x2210) with sp := 15 }
    s.Fetches (.call 0x210#12) ∧ s.sp.val < 16 ∧ (0x210#12).toNat + 1 ≤ 0xFFF ∧
      Word.ofBytes (s.mem.read 0x210) (s.mem.read 0x211) = 0x00EE#16 := by decide

/-- Each of the three operations, with and without the clearing of `VF`, `x = 15` included. -/
theorem witness_LogicOpsActBitwise :
    (Instr.orReg 15 1 = .orReg 15 1 ∧ or = or ∧ State.reset.cfg.logicClearsVF = false) ∧
    (14 : Reg) ≠ VF ∧ (withCfg State.reset { Config.default with logicClearsVF := true }).cfg.logicClearsVF = true :=
  ⟨⟨rfl, rfl, rfl⟩, by decide, rfl⟩

/-- The destinations 14 and 15 of the flag-setting instructions (AddSetsTheCarry, SubtractsSetNotBorrow,
ShiftsMoveOneBitIntoVF and FlagsBalanceTheArithmetic), equal and unequal operands. -/
theorem witness_FlagDestinations :
    (14 : Reg) ≠ VF ∧ (15 : Reg) = VF ∧ State.reset.reg 14 = State.reset.reg 0 ∧
    (State.reset.setReg 14 1#8).reg 14 ≠ (State.reset.setReg 14 1#8).reg 0 := by decide

theorem witness_RandomByteIsMasked :
    ({ State.reset with rnd := some 0xFF#8 } : State).rnd = some 0xFF#8 ∧ State.reset.rnd = none := by decide

/-- All three digits in range up to the last address, and the last one dropped. -/
theorem witness_DecimalDigitsAreStored :
    (let s := setup [(0, 254#8)] 0xFFD#16 []
     s.MemCanonical ∧ s.ea 0 ≤ 0xFFF ∧ s.ea 1 ≤ 0xFFF ∧ s.ea 2 ≤ 0xFFF) ∧
    (let s := setup [(0, 254#8)] 0xFFE#16 []
     s.MemCanonical ∧ s.ea 1 ≤ 0xFFF ∧ ¬ s.ea 2 ≤ 0xFFF) := by decide

theorem witness_RegistersAreStored :
    let s := setup [] 0xFF0#16 []
    s.MemCanonical ∧ (15 : Reg) ≤ 15 ∧ s.ea 15 ≤ 0xFFF ∧ ¬ (setup [] 0xFF1#16 []).ea 15 ≤ 0xFFF := by decide

/-- In range up to the last address; one beyond it, under either policy. -/
theorem witness_RegistersAreLoaded :
    (setup [] 0xFF0#16 []).ea 15 ≤ 0xFFF ∧
    (let s := setup [] 0xFF1#16 []
     0xFFF < s.ea 15 ∧ s.cfg.oobRead = .fault) ∧
    (let s := withCfg (setup [] 0xFF1#16 []) anyReads
     s.cfg.oobRead = .any ∧ s.ea 14 ≤ 0xFFF) := by decide

theorem witness_StoredBytesAreFetchedNext :
    (let s := { (setup [(0, 0x12#8)] 0xFFE#16 []) with pc := 0xFFC#16 }
     s.MemCanonical ∧ 1 ≤ (1 : Reg).val ∧ s.i = s.pc + 2 ∧ s.ea 1 ≤ 0xFFF) ∧
    ∃ t, exec (.store 1) { (setup [(0, 0x12#8)] 0xFFE#16 []) with pc := 0xFFC#16 } = .next t :=
  ⟨by decide, ⟨_, rfl⟩⟩

/-- No row, and 15 rows up to the last address. -/
theorem witness_DrawXorsTheSprite : (0#4).toNat = 0 ∧ (setup [] 0xFF1#16 []).ea ((15#4).toNat - 1) ≤ 0xFFF := by decide

theorem witness_DrawBeyondMemory :
    (let s := setup [] 0x1000#16 []
     0 < (1#4).toNat ∧ 0xFFF < s.ea ((1#4).toNat - 1) ∧ s.cfg.oobRead = .fault) ∧
    (let s := withCfg (setup [] 0xFF2#16 []) anyReads
     0xFFF < s.ea ((15#4).toNat - 1) ∧ s.cfg.oobRead = .any ∧ s.ea 13 ≤ 0xFFF) := by decide

/-- Two draws in a row. -/
theorem witness_DrawingTwiceRestoresTheScreen :
    let s := setup [(0, 60#8), (1, 31#8)] 0xFFE#16 [(0xFFE, 0xFF#8), (0xFFF, 0x42#8)]
    (0 : Reg) ≠ VF ∧ (1 : Reg) ≠ VF ∧ s.ea ((2#4).toNat - 1) ≤ 0xFFF ∧
    ∃ t, exec (.drw 0 1 2#4) s = .next t ∧ t.fb = t.fb ∧ t.i = s.i ∧ t.reg 0 = s.reg 0 ∧ t.reg 1 = s.reg 1 ∧
      (∀ r < (2#4).toNat, t.mem.read (s.ea r) = s.mem.read (s.ea r)) ∧ ∃ u, exec (.drw 0 1 2#4) t = .next u :=
  ⟨by decide, by decide, by decide, _, rfl, rfl, rfl, by decide, by decide, fun _ _ => rfl, _, rfl⟩

theorem witness_KeySkipsTestTheKey :
    ((State.reset.setReg 0 15#8).reg 0).toNat < 16 ∧
    (let s := State.reset.setReg 0 16#8
     15 < (s.reg 0).toNat ∧ s.cfg.keyIndex = .fault) ∧
    (let s := withCfg (State.reset.setReg 0 255#8) { Config.default with keyIndex := .any }
     15 < (s.reg 0).toNat ∧ s.cfg.keyIndex = .any) := by decide

theorem witness_DelayTimerReadIsTicked : (ready 0xF307).Fetches (.ldVxDT 3) := by decide

theorem witness_TimerWritesSetTheTimer :
    (ready 0xF215).Fetches (.ldDTVx 2) ∧ (ready 0xFF18).Fetches (.ldSTVx 15) := by decide

theorem witness_LoaderPlacesTheImage :
    State.reset.MemCanonical ∧ (List.replicate 3 7#8)[2]? = some 7#8 ∧ 0x200 + (List.replicate 3 7#8).length ≤ 0x203 := by decide

theorem witness_ConstructionPlacesTheFont : (List.replicate 80 0xAA#8).length = 80 ∧ font.length = 80 := by decide

theorem witness_ToneFollowsTheSoundTimer : (ready 0xF218).Fetches (.ldSTVx 2) := by decide

theorem witness_StepKeepsMemoryCanonical : State.reset.MemCanonical ∧ ∃ t, step State.reset = .next t := ⟨by decide, _, rfl⟩

/-- The bounds are reached: `Bnnn` with `nnn = 0xFFF` and `V0 = 255`. -/
theorem witness_StepKeepsThePcBounded :
    (setup [(0, 0xFF#8)] 0#16 [(0x200, 0xBF#8), (0x201, 0xFF#8)]).PcBounded ∧
    ∃ t, step (setup [(0, 0xFF#8)] 0#16 [(0x200, 0xBF#8), (0x201, 0xFF#8)]) = .next t ∧ t.pc.toNat = 0x10FE :=
  ⟨⟨rfl, by decide, by decide⟩, _, rfl, by decide⟩

end Sys2Proof.Tests
end

-- Proofs: the instructions that write memory (20_memory.md, 43_index_memory.md)
section

namespace Sys2Proof.Machine

/-! ## Rows of family F -/

/-- A row of family F in the opcode map (mask 0xF0FF) is decoded by the family's dispatch on `kk`
(30_encoding.md R80, R81). -/
theorem decodesAs_of_familyF {v : Word} {f : Word → Instr} (hv : v &&& 0xF0FF#16 = v) (hop : v.op = 0xF#4)
    (hf : ∀ w : Word, w.kk = v.kk → decodeFamilyF w = .instr (f w)) : DecodesAs 0xF0FF v f := by
  intro w hw
  obtain ⟨hwop, hwkk⟩ := (fits_op_kk hv).mp hw
  rw [decode_opF (hwop.trans hop), hf w hwkk]

theorem decodesAs_ldB : DecodesAs 0xF0FF 0xF033 (fun w => .ldB w.x) := by
  refine decodesAs_of_familyF rfl rfl fun w hkk => ?_
  have hkk : w.kk = 0x33#8 := hkk
  simp [decodeFamilyF, hkk]

/-! ## The frame of an instruction that moves the pc -/

/-- A raise keeps the pc (60_exceptions.md R232), so an instruction that moves it completed within its frame. -/
theorem exec_frame_of_pc_ne {i : Instr} {s t : State} (h : exec i s = .next t) (hpc : t.pc ≠ s.pc) :
    Frame (touches i s) s t := by
  obtain hframe | ⟨c, rfl⟩ := exec_frame h
  · exact hframe
  · exact absurd rfl hpc

theorem add_two_ne_self (p : Word) : p + 2 ≠ p := by
  bv_omega

/-! ## Blocks written at `I` -/

/-- Byte `k` of a block written at `I` is read back at `I + k`, where that address exists (20_memory.md R53, R55). -/
theorem State.read_writeBlock_ea {s : State} (hmem : s.MemCanonical) {bs : List Byte} {k : Nat} (hk : k < bs.length)
    (hea : s.ea k ≤ 0xFFF) : (s.mem.writeBlock (s.ea 0) bs).read (s.ea k) = bs[k] :=
  Memory.read_writeBlock_inside hmem hk (Nat.lt_succ_of_le hea)

/-! ## `Fx33` -/

theorem exec_ldB (x : Reg) (s : State) :
    exec (.ldB x) s =
      .next { s with mem := s.mem.writeBlock (s.ea 0) (decimalDigits (s.reg x)), pc := s.pc + 2 } := rfl

/-- Digit `k` of a byte, stored at `I` with the others, is read back at `I + k` where that address exists. -/
theorem State.read_decimalDigits {s : State} (hmem : s.MemCanonical) (b : Byte) {k : Nat} (hk : k < 3)
    (hea : s.ea k ≤ 0xFFF) :
    (s.mem.writeBlock (s.ea 0) (decimalDigits b)).read (s.ea k) = (decimalDigits b)[k]'hk :=
  State.read_writeBlock_ea hmem hk hea

/-- Settles O41: the block law reads each digit back, and the frame follows because the pc moves. -/
theorem decimalDigitsAreStored : Obligations.DecimalDigitsAreStored := by
  unfold Obligations.DecimalDigitsAreStored
  refine ⟨decodesAs_ldB, fun x s hmem => ⟨_, exec_ldB x s, ?hundreds, ?tens, ?ones, rfl, ?frame⟩⟩
  case hundreds =>
    intro hea
    rw [State.read_decimalDigits hmem _ (by decide) hea]
    exact BitVec.toNat_udiv
  case tens =>
    intro hea
    rw [State.read_decimalDigits hmem _ (by decide) hea]
    simp [decimalDigits]
  case ones =>
    intro hea
    rw [State.read_decimalDigits hmem _ (by decide) hea]
    exact BitVec.toNat_umod
  case frame => exact exec_frame_of_pc_ne (exec_ldB x s) (add_two_ne_self s.pc)

end Sys2Proof.Machine
end

-- Proofs: jumps and conditional skips (41_control_flow.md)
section

namespace Sys2Proof.Machine

/-! ## Rows of the families told apart by `op`, or by `op` and `n` -/

/-- A row with mask 0xF000 in the opcode map is decoded by its `op` alone (30_encoding.md R80, R81). -/
theorem decodesAs_of_op {v : Word} {f : Word → Instr} (hv : v &&& 0xF000#16 = v)
    (hf : ∀ w : Word, w.op = v.op → decode w = .instr (f w)) : DecodesAs 0xF000 v f :=
  fun w hw => hf w ((fits_op hv).mp hw)

/-- A row with mask 0xF00F in the opcode map is decoded by its `op` and `n` (30_encoding.md R80, R81, R83). -/
theorem decodesAs_of_op_n {v : Word} {f : Word → Instr} (hv : v &&& 0xF00F#16 = v)
    (hf : ∀ w : Word, w.op = v.op → w.n = v.n → decode w = .instr (f w)) : DecodesAs 0xF00F v f := by
  intro w hw
  obtain ⟨hop, hn⟩ := (fits_op_n hv).mp hw
  exact hf w hop hn

/-! ## Instructions that only apply a directive -/

/-- An instruction that only applies a directive moves the pc to its target and writes nothing else
(40_cycle.md R106, R107). -/
theorem completes_of_finish {i : Instr} {s : State} {d : Directive} (h : exec i s = s.finish d) :
    Completes i s fun t => t.pc = d.target s.pc ∧ Frame {} s t :=
  ⟨_, h, rfl, Frame.of_pc s _⟩

theorem Directive.target_skipIf_beq (a b : Byte) (p : Word) :
    (Directive.skipIf (a == b)).target p = if a = b then p + 4 else p + 2 := by
  by_cases hab : a = b <;> simp [Directive.skipIf, Directive.target, hab]

theorem Directive.target_skipIf_bne (a b : Byte) (p : Word) :
    (Directive.skipIf (a != b)).target p = if a = b then p + 2 else p + 4 := by
  by_cases hab : a = b <;> simp [Directive.skipIf, Directive.target, hab]

theorem completes_of_skipIf_beq {i : Instr} {s : State} {a b : Byte} (h : exec i s = s.finish (.skipIf (a == b))) :
    Completes i s fun t => t.pc = (if a = b then s.pc + 4 else s.pc + 2) ∧ Frame {} s t := by
  rw [← Directive.target_skipIf_beq]
  exact completes_of_finish h

theorem completes_of_skipIf_bne {i : Instr} {s : State} {a b : Byte} (h : exec i s = s.finish (.skipIf (a != b))) :
    Completes i s fun t => t.pc = (if a = b then s.pc + 2 else s.pc + 4) ∧ Frame {} s t := by
  rw [← Directive.target_skipIf_bne]
  exact completes_of_finish h

/-! ## `1nnn` -/

theorem decodesAs_jp : DecodesAs 0xF000 0x1000 (fun w => .jp w.nnn) :=
  decodesAs_of_op rfl fun _ => decode_op1

theorem exec_jp (nnn : Addr12) (s : State) : exec (.jp nnn) s = s.finish (.jump (addrOf nnn)) := rfl

/-- Settles O21: the directive's target is the zero-extended address, which has the same value. -/
theorem jumpGoesToItsAddress : Obligations.JumpGoesToItsAddress := by
  unfold Obligations.JumpGoesToItsAddress
  refine ⟨decodesAs_jp, fun nnn s => ?_⟩
  obtain ⟨t, hexec, hpc, hframe⟩ := completes_of_finish (exec_jp nnn s)
  exact ⟨t, hexec, hpc ▸ addrOf_toNat nnn, hframe⟩

/-! ## `3xkk` and `4xkk` -/

theorem decodesAs_seImm : DecodesAs 0xF000 0x3000 (fun w => .seImm w.x w.kk) :=
  decodesAs_of_op rfl fun _ => decode_op3

theorem decodesAs_sneImm : DecodesAs 0xF000 0x4000 (fun w => .sneImm w.x w.kk) :=
  decodesAs_of_op rfl fun _ => decode_op4

theorem exec_seImm (x : Reg) (kk : Byte) (s : State) :
    exec (.seImm x kk) s = s.finish (.skipIf (s.reg x == kk)) := rfl

theorem exec_sneImm (x : Reg) (kk : Byte) (s : State) :
    exec (.sneImm x kk) s = s.finish (.skipIf (s.reg x != kk)) := rfl

/-- Settles O25: both rows apply one skip directive, on equality and on inequality. -/
theorem skipsOnAnImmediate : Obligations.SkipsOnAnImmediate := by
  unfold Obligations.SkipsOnAnImmediate
  exact ⟨decodesAs_seImm, decodesAs_sneImm, fun x kk s =>
    ⟨completes_of_skipIf_beq (exec_seImm x kk s), completes_of_skipIf_bne (exec_sneImm x kk s)⟩⟩

/-! ## `5xy0` and `9xy0` -/

theorem decodesAs_seReg : DecodesAs 0xF00F 0x5000 (fun w => .seReg w.x w.y) :=
  decodesAs_of_op_n rfl fun _ hop hn => (decode_op5 hop).trans (if_pos hn)

theorem decodesAs_sneReg : DecodesAs 0xF00F 0x9000 (fun w => .sneReg w.x w.y) :=
  decodesAs_of_op_n rfl fun _ hop hn => (decode_op9 hop).trans (if_pos hn)

/-- Families 5 and 9 hold no row with `n` other than 0 (30_encoding.md R83). -/
theorem decode_op5_op9_unknown {w : Word} (hn : w.n ≠ 0) (hop : w.op = 5 ∨ w.op = 9) : decode w = .unknown w := by
  obtain h5 | h9 := hop
  · exact (decode_op5 h5).trans (if_neg hn)
  · exact (decode_op9 h9).trans (if_neg hn)

theorem exec_seReg (x y : Reg) (s : State) :
    exec (.seReg x y) s = s.finish (.skipIf (s.reg x == s.reg y)) := rfl

theorem exec_sneReg (x y : Reg) (s : State) :
    exec (.sneReg x y) s = s.finish (.skipIf (s.reg x != s.reg y)) := rfl

/-- Settles O26: both rows apply one skip directive, and decoding a word of either family turns on `n = 0`. -/
theorem skipsOnRegisters : Obligations.SkipsOnRegisters := by
  unfold Obligations.SkipsOnRegisters
  exact ⟨decodesAs_seReg, decodesAs_sneReg, fun _ => decode_op5_op9_unknown, fun x y s =>
    ⟨completes_of_skipIf_beq (exec_seReg x y s), completes_of_skipIf_bne (exec_sneReg x y s)⟩⟩

end Sys2Proof.Machine
end

-- Proofs: loads and adds of one register (42_alu.md)
section

namespace Sys2Proof.Machine

/-! ## Instructions that only write one register -/

/-- An instruction that only writes one register and goes on to the next one ends with the byte there, the pc moved on
by 2 and nothing else changed (40_cycle.md R106, R107). -/
theorem completes_of_setReg {i : Instr} {s : State} {x : Reg} {b : Byte} (h : exec i s = (s.setReg x b).finish .next) :
    Completes i s fun t => t.reg x = b ∧ t.pc = s.pc + 2 ∧ Frame { regs := [x] } s t :=
  ⟨_, h, State.setReg_reg_self s x b, rfl, Frame.of_setReg s x b _⟩

/-! ## `6xkk` -/

theorem decodesAs_ldImm : DecodesAs 0xF000 0x6000 (fun w => .ldImm w.x w.kk) :=
  decodesAs_of_op rfl fun _ => decode_op6

theorem exec_ldImm (x : Reg) (kk : Byte) (s : State) : exec (.ldImm x kk) s = (s.setReg x kk).finish .next := rfl

/-- Settles O28: the one write is `kk` to `V[x]`. -/
theorem loadImmediateSetsTheRegister : Obligations.LoadImmediateSetsTheRegister := by
  unfold Obligations.LoadImmediateSetsTheRegister
  exact ⟨decodesAs_ldImm, fun x kk s => completes_of_setReg (exec_ldImm x kk s)⟩

/-! ## `7xkk` -/

theorem decodesAs_addImm : DecodesAs 0xF000 0x7000 (fun w => .addImm w.x w.kk) :=
  decodesAs_of_op rfl fun _ => decode_op7

theorem exec_addImm (x : Reg) (kk : Byte) (s : State) :
    exec (.addImm x kk) s = (s.setReg x (s.reg x + kk)).finish .next := rfl

/-- Settles O29: the one write is the sum of two bytes, whose value is the sum modulo 256. -/
theorem addImmediateWrapsWithoutFlag : Obligations.AddImmediateWrapsWithoutFlag := by
  unfold Obligations.AddImmediateWrapsWithoutFlag
  refine ⟨decodesAs_addImm, fun x kk s => ?_⟩
  obtain ⟨t, hexec, hreg, hpc, hframe⟩ := completes_of_setReg (exec_addImm x kk s)
  exact ⟨t, hexec, hreg ▸ BitVec.toNat_add (s.reg x) kk, hpc, hframe⟩

/-! ## `8xy0` -/

theorem decodesAs_ldReg : DecodesAs 0xF00F 0x8000 (fun w => .ldReg w.x w.y) :=
  decodesAs_of_op_n rfl fun _ hop hn => (decode_op8 hop).trans (decodeFamily8_n0 hn)

theorem exec_ldReg (x y : Reg) (s : State) : exec (.ldReg x y) s = (s.setReg x (s.reg y)).finish .next := rfl

/-- Settles O30: the one write is the byte that `V[y]` held before, to `V[x]`. -/
theorem copySetsTheRegister : Obligations.CopySetsTheRegister := by
  unfold Obligations.CopySetsTheRegister
  exact ⟨decodesAs_ldReg, fun x y s => completes_of_setReg (exec_ldReg x y s)⟩

end Sys2Proof.Machine
end

-- Proofs: loads of the index register (43_index_memory.md)
section

namespace Sys2Proof.Machine

/-! ## Instructions that only write `I` -/

theorem Frame.of_i (s : State) (a p : Word) : Frame { i := true } s { s with i := a, pc := p } := by
  constructor
  case i => intro hkept; cases hkept
  all_goals intros; rfl

/-- An instruction that only writes `I` and goes on to the next one ends with the address there, the pc moved on by 2
and nothing else changed (40_cycle.md R106, R107). -/
theorem completes_of_setI {i : Instr} {s : State} {a : Word} (h : exec i s = State.finish { s with i := a } .next) :
    Completes i s fun t => t.i = a ∧ t.pc = s.pc + 2 ∧ Frame { i := true } s t :=
  ⟨_, h, rfl, rfl, Frame.of_i s a _⟩

/-! ## `Annn` -/

theorem decodesAs_ldI : DecodesAs 0xF000 0xA000 (fun w => .ldI w.nnn) :=
  decodesAs_of_op rfl fun _ => decode_opA

theorem exec_ldI (nnn : Addr12) (s : State) :
    exec (.ldI nnn) s = State.finish { s with i := addrOf nnn } .next := rfl

/-- Settles O38: the one write is the zero-extended address, which has the same value. -/
theorem loadIndexSetsI : Obligations.LoadIndexSetsI := by
  unfold Obligations.LoadIndexSetsI
  refine ⟨decodesAs_ldI, fun nnn s => ?_⟩
  obtain ⟨t, hexec, hi, hpc, hframe⟩ := completes_of_setI (exec_ldI nnn s)
  exact ⟨t, hexec, hi ▸ addrOf_toNat nnn, hpc, hframe⟩

end Sys2Proof.Machine
end

-- Proofs: reading the delay timer (45_timers_input.md)
section

namespace Sys2Proof.Machine

/-! ## A whole cycle that executes an instruction -/

/-- A Running cycle ticks the timers and goes on to fetch: there is no key wait to resolve (40_cycle.md R100, R104). -/
theorem step_running {s : State} (hrun : s.Running) : step s = fetchExecute s.afterTick := by
  obtain ⟨hfault, hwait⟩ := hrun
  have hphase : s.afterTick.waitPhase = .proceed s.afterTick := by
    have hwait' : s.afterTick.inputWait = none := hwait
    simp only [State.waitPhase, hwait']
  simp only [step, hfault, State.beginCycle_running hwait, hphase]

/-- Phases 4 to 7 on a word in memory that decodes to an instruction (40_cycle.md R102, R105, R106). -/
theorem fetchExecute_instr {s : State} {i : Instr} (hin : s.FetchInRange) (hdec : decode s.wordAtPc = .instr i) :
    fetchExecute s = exec i s := by
  simp only [fetchExecute, State.fetch_inRange hin, execWord, hdec]

/-- The instruction that a Running state fetches is executed on the ticked state, whose pc and memory are as before
(40_cycle.md R100). -/
theorem step_of_fetches {s : State} {i : Instr} (h : s.Fetches i) : step s = exec i s.afterTick := by
  obtain ⟨hrun, hin, hdec⟩ := h
  exact (step_running hrun).trans (fetchExecute_instr (s := s.afterTick) hin hdec)

/-! ## `Fx07` -/

theorem decodesAs_ldVxDT : DecodesAs 0xF0FF 0xF007 (fun w => .ldVxDT w.x) :=
  decodesAs_of_familyF rfl rfl fun _ hkk => if_pos hkk

theorem exec_ldVxDT (x : Reg) (s : State) : exec (.ldVxDT x) s = (s.setReg x s.dt).finish .next := rfl

/-- `Fx07` sets `V[x]` to `DT` and, of the rest, moves only the pc (45_timers_input.md R212). -/
theorem completes_ldVxDT (x : Reg) (s : State) : Completes (.ldVxDT x) s fun t =>
    t.reg x = s.dt ∧ t.pc = s.pc + 2 ∧ Frame { regs := [x] } s t :=
  completes_of_setReg (exec_ldVxDT x s)

/-- Settles O50: over a whole cycle the one write is the ticked timer, and the frame keeps that timer. -/
theorem delayTimerReadIsTicked : Obligations.DelayTimerReadIsTicked := by
  unfold Obligations.DelayTimerReadIsTicked
  refine ⟨decodesAs_ldVxDT, completes_ldVxDT, fun x s hfetch => ?_⟩
  obtain ⟨t, hexec, hreg, -, hframe⟩ := completes_ldVxDT x s.afterTick
  have hdt : t.dt = ticked s.dt := hframe.dt rfl
  exact ⟨t, (step_of_fetches hfetch).trans hexec, hreg ▸ ticked_toNat s.dt, hdt ▸ ticked_toNat s.dt⟩

end Sys2Proof.Machine
end

-- Proofs: the decoder against the opcode map (30_encoding.md)
section

namespace Sys2Proof.Machine

/-! ## Family F, told apart by `kk` (30_encoding.md R81) -/

theorem decodeFamilyF_kk0A {w : Word} (h : w.kk = 0x0A#8) : decodeFamilyF w = .instr (.ldVxK w.x) := by
  simp [decodeFamilyF, h]

theorem decodeFamilyF_kk15 {w : Word} (h : w.kk = 0x15#8) : decodeFamilyF w = .instr (.ldDTVx w.x) := by
  simp [decodeFamilyF, h]

theorem decodeFamilyF_kk18 {w : Word} (h : w.kk = 0x18#8) : decodeFamilyF w = .instr (.ldSTVx w.x) := by
  simp [decodeFamilyF, h]

theorem decodeFamilyF_kk1E {w : Word} (h : w.kk = 0x1E#8) : decodeFamilyF w = .instr (.addI w.x) := by
  simp [decodeFamilyF, h]

theorem decodeFamilyF_kk29 {w : Word} (h : w.kk = 0x29#8) : decodeFamilyF w = .instr (.ldF w.x) := by
  simp [decodeFamilyF, h]

theorem decodeFamilyF_kk55 {w : Word} (h : w.kk = 0x55#8) : decodeFamilyF w = .instr (.store w.x) := by
  simp [decodeFamilyF, h]

theorem decodeFamilyF_kk65 {w : Word} (h : w.kk = 0x65#8) : decodeFamilyF w = .instr (.load w.x) := by
  simp [decodeFamilyF, h]

/-! ## Every row of the opcode map is decoded to its instruction (30_encoding.md R80) -/

/-- A row of family E in the opcode map (mask 0xF0FF) is decoded by the family's dispatch on `kk`. -/
theorem decodesAs_of_familyE {v : Word} {f : Word → Instr} (hv : v &&& 0xF0FF#16 = v) (hop : v.op = 0xE#4)
    (hf : ∀ w : Word, w.kk = v.kk → decodeFamilyE w = .instr (f w)) : DecodesAs 0xF0FF v f := by
  intro w hw
  obtain ⟨hwop, hwkk⟩ := (fits_op_kk hv).mp hw
  rw [decode_opE (hwop.trans hop), hf w hwkk]

theorem decode_cls : decode 0x00E0 = .instr .cls := by decide

theorem decode_ret : decode 0x00EE = .instr .ret := by decide

theorem decodesAs_call : DecodesAs 0xF000 0x2000 (fun w => .call w.nnn) :=
  decodesAs_of_op rfl fun _ => decode_op2

theorem decodesAs_orReg : DecodesAs 0xF00F 0x8001 (fun w => .orReg w.x w.y) :=
  decodesAs_of_op_n rfl fun _ hop hn => (decode_op8 hop).trans (decodeFamily8_n1 hn)

theorem decodesAs_andReg : DecodesAs 0xF00F 0x8002 (fun w => .andReg w.x w.y) :=
  decodesAs_of_op_n rfl fun _ hop hn => (decode_op8 hop).trans (decodeFamily8_n2 hn)

theorem decodesAs_xorReg : DecodesAs 0xF00F 0x8003 (fun w => .xorReg w.x w.y) :=
  decodesAs_of_op_n rfl fun _ hop hn => (decode_op8 hop).trans (decodeFamily8_n3 hn)

theorem decodesAs_addReg : DecodesAs 0xF00F 0x8004 (fun w => .addReg w.x w.y) :=
  decodesAs_of_op_n rfl fun _ hop hn => (decode_op8 hop).trans (decodeFamily8_n4 hn)

theorem decodesAs_subReg : DecodesAs 0xF00F 0x8005 (fun w => .subReg w.x w.y) :=
  decodesAs_of_op_n rfl fun _ hop hn => (decode_op8 hop).trans (decodeFamily8_n5 hn)

theorem decodesAs_shr : DecodesAs 0xF00F 0x8006 (fun w => .shr w.x w.y) :=
  decodesAs_of_op_n rfl fun _ hop hn => (decode_op8 hop).trans (decodeFamily8_n6 hn)

theorem decodesAs_subnReg : DecodesAs 0xF00F 0x8007 (fun w => .subnReg w.x w.y) :=
  decodesAs_of_op_n rfl fun _ hop hn => (decode_op8 hop).trans (decodeFamily8_n7 hn)

theorem decodesAs_shl : DecodesAs 0xF00F 0x800E (fun w => .shl w.x w.y) :=
  decodesAs_of_op_n rfl fun _ hop hn => (decode_op8 hop).trans (decodeFamily8_nE hn)

theorem decodesAs_jpV0 : DecodesAs 0xF000 0xB000 (fun w => .jpV0 w.nnn) :=
  decodesAs_of_op rfl fun _ => decode_opB

theorem decodesAs_rnd : DecodesAs 0xF000 0xC000 (fun w => .rnd w.x w.kk) :=
  decodesAs_of_op rfl fun _ => decode_opC

theorem decodesAs_drw : DecodesAs 0xF000 0xD000 (fun w => .drw w.x w.y w.n) :=
  decodesAs_of_op rfl fun _ => decode_opD

theorem decodesAs_skp : DecodesAs 0xF0FF 0xE09E (fun w => .skp w.x) :=
  decodesAs_of_familyE rfl rfl fun _ hkk => if_pos hkk

theorem decodesAs_sknp : DecodesAs 0xF0FF 0xE0A1 (fun w => .sknp w.x) := by
  refine decodesAs_of_familyE rfl rfl fun w hkk => ?_
  have hkk : w.kk = 0xA1#8 := hkk
  simp [decodeFamilyE, hkk]

theorem decodesAs_ldVxK : DecodesAs 0xF0FF 0xF00A (fun w => .ldVxK w.x) :=
  decodesAs_of_familyF rfl rfl fun _ => decodeFamilyF_kk0A

theorem decodesAs_ldDTVx : DecodesAs 0xF0FF 0xF015 (fun w => .ldDTVx w.x) :=
  decodesAs_of_familyF rfl rfl fun _ => decodeFamilyF_kk15

theorem decodesAs_ldSTVx : DecodesAs 0xF0FF 0xF018 (fun w => .ldSTVx w.x) :=
  decodesAs_of_familyF rfl rfl fun _ => decodeFamilyF_kk18

theorem decodesAs_addI : DecodesAs 0xF0FF 0xF01E (fun w => .addI w.x) :=
  decodesAs_of_familyF rfl rfl fun _ => decodeFamilyF_kk1E

theorem decodesAs_ldF : DecodesAs 0xF0FF 0xF029 (fun w => .ldF w.x) :=
  decodesAs_of_familyF rfl rfl fun _ => decodeFamilyF_kk29

theorem decodesAs_store : DecodesAs 0xF0FF 0xF055 (fun w => .store w.x) :=
  decodesAs_of_familyF rfl rfl fun _ => decodeFamilyF_kk55

theorem decodesAs_load : DecodesAs 0xF0FF 0xF065 (fun w => .load w.x) :=
  decodesAs_of_familyF rfl rfl fun _ => decodeFamilyF_kk65

/-! ## The instruction of a row with the operands of a word -/

/-- The instruction of `i`'s row whose operands are the fields of `w` (30_encoding.md R71, R80). -/
def withFieldsOf (i : Instr) (w : Word) : Instr :=
  match i with
  | .cls => .cls
  | .ret => .ret
  | .jp _ => .jp w.nnn
  | .call _ => .call w.nnn
  | .seImm _ _ => .seImm w.x w.kk
  | .sneImm _ _ => .sneImm w.x w.kk
  | .seReg _ _ => .seReg w.x w.y
  | .ldImm _ _ => .ldImm w.x w.kk
  | .addImm _ _ => .addImm w.x w.kk
  | .ldReg _ _ => .ldReg w.x w.y
  | .orReg _ _ => .orReg w.x w.y
  | .andReg _ _ => .andReg w.x w.y
  | .xorReg _ _ => .xorReg w.x w.y
  | .addReg _ _ => .addReg w.x w.y
  | .subReg _ _ => .subReg w.x w.y
  | .shr _ _ => .shr w.x w.y
  | .subnReg _ _ => .subnReg w.x w.y
  | .shl _ _ => .shl w.x w.y
  | .sneReg _ _ => .sneReg w.x w.y
  | .ldI _ => .ldI w.nnn
  | .jpV0 _ => .jpV0 w.nnn
  | .rnd _ _ => .rnd w.x w.kk
  | .drw _ _ _ => .drw w.x w.y w.n
  | .skp _ => .skp w.x
  | .sknp _ => .sknp w.x
  | .ldVxDT _ => .ldVxDT w.x
  | .ldVxK _ => .ldVxK w.x
  | .ldDTVx _ => .ldDTVx w.x
  | .ldSTVx _ => .ldSTVx w.x
  | .addI _ => .addI w.x
  | .ldF _ => .ldF w.x
  | .ldB _ => .ldB w.x
  | .store _ => .store w.x
  | .load _ => .load w.x

theorem row_withFieldsOf (i : Instr) (w : Word) : (withFieldsOf i w).row = i.row := by
  cases i <;> rfl

theorem withFieldsOf_encode (i : Instr) : withFieldsOf i (encode i) = i := by
  cases i <;> simp [withFieldsOf, encode]

theorem fits_iff {r : OpcodeRow} {w : Word} : r.fits w = true ↔ w &&& r.mask = r.value := beq_iff_eq

/-- A word that fits the row of an instruction decodes to the instruction of that row with the word's operands. -/
theorem decode_of_fits {i : Instr} {w : Word} (h : i.row.fits w = true) : decode w = .instr (withFieldsOf i w) := by
  rw [fits_iff] at h
  cases i
  case cls => exact fits_word.mp h ▸ decode_cls
  case ret => exact fits_word.mp h ▸ decode_ret
  case jp => exact decodesAs_jp w h
  case call => exact decodesAs_call w h
  case seImm => exact decodesAs_seImm w h
  case sneImm => exact decodesAs_sneImm w h
  case seReg => exact decodesAs_seReg w h
  case ldImm => exact decodesAs_ldImm w h
  case addImm => exact decodesAs_addImm w h
  case ldReg => exact decodesAs_ldReg w h
  case orReg => exact decodesAs_orReg w h
  case andReg => exact decodesAs_andReg w h
  case xorReg => exact decodesAs_xorReg w h
  case addReg => exact decodesAs_addReg w h
  case subReg => exact decodesAs_subReg w h
  case shr => exact decodesAs_shr w h
  case subnReg => exact decodesAs_subnReg w h
  case shl => exact decodesAs_shl w h
  case sneReg => exact decodesAs_sneReg w h
  case ldI => exact decodesAs_ldI w h
  case jpV0 => exact decodesAs_jpV0 w h
  case rnd => exact decodesAs_rnd w h
  case drw => exact decodesAs_drw w h
  case skp => exact decodesAs_skp w h
  case sknp => exact decodesAs_sknp w h
  case ldVxDT => exact decodesAs_ldVxDT w h
  case ldVxK => exact decodesAs_ldVxK w h
  case ldDTVx => exact decodesAs_ldDTVx w h
  case ldSTVx => exact decodesAs_ldSTVx w h
  case addI => exact decodesAs_addI w h
  case ldF => exact decodesAs_ldF w h
  case ldB => exact decodesAs_ldB w h
  case store => exact decodesAs_store w h
  case load => exact decodesAs_load w h

/-! ## The word of an instruction fits its row -/

/-- The row of every instruction is one of the opcode map, and fits the instruction's word. -/
theorem encode_fits_row (i : Instr) : i.row ∈ opcodeRows ∧ i.row.fits (encode i) = true := by
  cases i
  case cls => exact Laws.EncodesItsRow.cls
  case ret => exact Laws.EncodesItsRow.ret
  case jp => exact Laws.EncodesItsRow.jp _
  case call => exact Laws.EncodesItsRow.call _
  case seImm => exact Laws.EncodesItsRow.seImm _ _
  case sneImm => exact Laws.EncodesItsRow.sneImm _ _
  case seReg => exact Laws.EncodesItsRow.seReg _ _
  case ldImm => exact Laws.EncodesItsRow.ldImm _ _
  case addImm => exact Laws.EncodesItsRow.addImm _ _
  case ldReg => exact Laws.EncodesItsRow.ldReg _ _
  case orReg => exact Laws.EncodesItsRow.orReg _ _
  case andReg => exact Laws.EncodesItsRow.andReg _ _
  case xorReg => exact Laws.EncodesItsRow.xorReg _ _
  case addReg => exact Laws.EncodesItsRow.addReg _ _
  case subReg => exact Laws.EncodesItsRow.subReg _ _
  case shr => exact Laws.EncodesItsRow.shr _ _
  case subnReg => exact Laws.EncodesItsRow.subnReg _ _
  case shl => exact Laws.EncodesItsRow.shl _ _
  case sneReg => exact Laws.EncodesItsRow.sneReg _ _
  case ldI => exact Laws.EncodesItsRow.ldI _
  case jpV0 => exact Laws.EncodesItsRow.jpV0 _
  case rnd => exact Laws.EncodesItsRow.rnd _ _
  case drw => exact Laws.EncodesItsRow.drw _ _ _
  case skp => exact Laws.EncodesItsRow.skp _
  case sknp => exact Laws.EncodesItsRow.sknp _
  case ldVxDT => exact Laws.EncodesItsRow.ldVxDT _
  case ldVxK => exact Laws.EncodesItsRow.ldVxK _
  case ldDTVx => exact Laws.EncodesItsRow.ldDTVx _
  case ldSTVx => exact Laws.EncodesItsRow.ldSTVx _
  case addI => exact Laws.EncodesItsRow.addI _
  case ldF => exact Laws.EncodesItsRow.ldF _
  case ldB => exact Laws.EncodesItsRow.ldB _
  case store => exact Laws.EncodesItsRow.store _
  case load => exact Laws.EncodesItsRow.load _

/-- Settles O2: the word fits its own row, so it decodes to that row's instruction, with the fields as they were put in. -/
theorem decodeOfEncodeIsIdentity : Obligations.DecodeOfEncodeIsIdentity := by
  unfold Obligations.DecodeOfEncodeIsIdentity
  intro i
  obtain ⟨-, hfits⟩ := encode_fits_row i
  rw [decode_of_fits hfits, withFieldsOf_encode]

/-! ## A word that fits a row is the word of that row's instruction -/

theorem encNNN_of_op {w : Word} {op : Nibble} (h : w.op = op) : encNNN op w.nnn = w := h ▸ encNNN_fields w

theorem encXKK_of_op {w : Word} {op : Nibble} (h : w.op = op) : encXKK op w.x w.kk = w := h ▸ encXKK_fields w

theorem encXKK_of_op_kk {w : Word} {op : Nibble} {kk : Byte} (h : w.op = op ∧ w.kk = kk) : encXKK op w.x kk = w := by
  obtain ⟨rfl, rfl⟩ := h
  exact encXKK_fields w

theorem encXYN_of_op_n {w : Word} {op n : Nibble} (h : w.op = op ∧ w.n = n) : encXYN op w.x w.y n = w := by
  obtain ⟨rfl, rfl⟩ := h
  exact encXYN_fields w

/-- The operands and the fixed digits of the row are all the bits of the word. -/
theorem encode_withFieldsOf {i : Instr} {w : Word} (h : i.row.fits w = true) : encode (withFieldsOf i w) = w := by
  rw [fits_iff] at h
  cases i <;> dsimp only [Instr.row] at h
  case cls | ret => exact (fits_word.mp h).symm
  case jp | call | ldI | jpV0 => exact encNNN_of_op ((fits_op rfl).mp h)
  case seImm | sneImm | ldImm | addImm | rnd => exact encXKK_of_op ((fits_op rfl).mp h)
  case drw => exact encXYN_of_op_n ⟨(fits_op rfl).mp h, rfl⟩
  case seReg | sneReg | ldReg | orReg | andReg | xorReg | addReg | subReg | shr | subnReg | shl =>
    exact encXYN_of_op_n ((fits_op_n rfl).mp h)
  all_goals exact encXKK_of_op_kk ((fits_op_kk rfl).mp h)

/-! ## A word that fits no row is UNKNOWN -/

theorem fits_of_op {r : OpcodeRow} {w : Word} (hmask : r.mask = 0xF000#16) (hvalue : r.value &&& 0xF000#16 = r.value)
    (h : w.op = r.value.op) : r.fits w = true :=
  fits_iff.mpr (hmask ▸ (fits_op hvalue).mpr h)

theorem fits_of_op_n {r : OpcodeRow} {w : Word} (hmask : r.mask = 0xF00F#16) (hvalue : r.value &&& 0xF00F#16 = r.value)
    (hop : w.op = r.value.op) (hn : w.n = r.value.n) : r.fits w = true :=
  fits_iff.mpr (hmask ▸ (fits_op_n hvalue).mpr ⟨hop, hn⟩)

theorem fits_of_op_kk {r : OpcodeRow} {w : Word} (hmask : r.mask = 0xF0FF#16) (hvalue : r.value &&& 0xF0FF#16 = r.value)
    (hop : w.op = r.value.op) (hkk : w.kk = r.value.kk) : r.fits w = true :=
  fits_iff.mpr (hmask ▸ (fits_op_kk hvalue).mpr ⟨hop, hkk⟩)

theorem fits_or_unknown_family0 (w : Word) : (∃ i : Instr, i.row.fits w = true) ∨ decodeFamily0 w = .unknown w := by
  unfold decodeFamily0
  split_ifs with hcls hret
  · exact .inl ⟨.cls, fits_iff.mpr (fits_word.mpr hcls)⟩
  · exact .inl ⟨.ret, fits_iff.mpr (fits_word.mpr hret)⟩
  · exact .inr rfl

theorem fits_or_unknown_family8 {w : Word} (hop : w.op = 0x8#4) :
    (∃ i : Instr, i.row.fits w = true) ∨ decodeFamily8 w = .unknown w := by
  unfold decodeFamily8
  split_ifs with h0 h1 h2 h3 h4 h5 h6 h7 hE
  · exact .inl ⟨.ldReg 0 0, fits_of_op_n rfl rfl hop h0⟩
  · exact .inl ⟨.orReg 0 0, fits_of_op_n rfl rfl hop h1⟩
  · exact .inl ⟨.andReg 0 0, fits_of_op_n rfl rfl hop h2⟩
  · exact .inl ⟨.xorReg 0 0, fits_of_op_n rfl rfl hop h3⟩
  · exact .inl ⟨.addReg 0 0, fits_of_op_n rfl rfl hop h4⟩
  · exact .inl ⟨.subReg 0 0, fits_of_op_n rfl rfl hop h5⟩
  · exact .inl ⟨.shr 0 0, fits_of_op_n rfl rfl hop h6⟩
  · exact .inl ⟨.subnReg 0 0, fits_of_op_n rfl rfl hop h7⟩
  · exact .inl ⟨.shl 0 0, fits_of_op_n rfl rfl hop hE⟩
  · exact .inr rfl

theorem fits_or_unknown_familyE {w : Word} (hop : w.op = 0xE#4) :
    (∃ i : Instr, i.row.fits w = true) ∨ decodeFamilyE w = .unknown w := by
  unfold decodeFamilyE
  split_ifs with h9E hA1
  · exact .inl ⟨.skp 0, fits_of_op_kk rfl rfl hop h9E⟩
  · exact .inl ⟨.sknp 0, fits_of_op_kk rfl rfl hop hA1⟩
  · exact .inr rfl

theorem fits_or_unknown_familyF {w : Word} (hop : w.op = 0xF#4) :
    (∃ i : Instr, i.row.fits w = true) ∨ decodeFamilyF w = .unknown w := by
  unfold decodeFamilyF
  split_ifs with h07 h0A h15 h18 h1E h29 h33 h55 h65
  · exact .inl ⟨.ldVxDT 0, fits_of_op_kk rfl rfl hop h07⟩
  · exact .inl ⟨.ldVxK 0, fits_of_op_kk rfl rfl hop h0A⟩
  · exact .inl ⟨.ldDTVx 0, fits_of_op_kk rfl rfl hop h15⟩
  · exact .inl ⟨.ldSTVx 0, fits_of_op_kk rfl rfl hop h18⟩
  · exact .inl ⟨.addI 0, fits_of_op_kk rfl rfl hop h1E⟩
  · exact .inl ⟨.ldF 0, fits_of_op_kk rfl rfl hop h29⟩
  · exact .inl ⟨.ldB 0, fits_of_op_kk rfl rfl hop h33⟩
  · exact .inl ⟨.store 0, fits_of_op_kk rfl rfl hop h55⟩
  · exact .inl ⟨.load 0, fits_of_op_kk rfl rfl hop h65⟩
  · exact .inr rfl

/-- Family by family, a word fits the row of an instruction or is UNKNOWN (30_encoding.md R81, R84). -/
theorem fits_or_unknown (w : Word) : (∃ i : Instr, i.row.fits w = true) ∨ decode w = .unknown w := by
  obtain h | h | h | h | h | h | h | h | h | h | h | h | h | h | h | h := nibble_cases w.op
  · rw [decode_op0 h]; exact fits_or_unknown_family0 w
  · exact .inl ⟨.jp 0, fits_of_op rfl rfl h⟩
  · exact .inl ⟨.call 0, fits_of_op rfl rfl h⟩
  · exact .inl ⟨.seImm 0 0, fits_of_op rfl rfl h⟩
  · exact .inl ⟨.sneImm 0 0, fits_of_op rfl rfl h⟩
  · by_cases hn : w.n = 0x0#4
    · exact .inl ⟨.seReg 0 0, fits_of_op_n rfl rfl h hn⟩
    · exact .inr (decode_op5_op9_unknown hn (.inl h))
  · exact .inl ⟨.ldImm 0 0, fits_of_op rfl rfl h⟩
  · exact .inl ⟨.addImm 0 0, fits_of_op rfl rfl h⟩
  · rw [decode_op8 h]; exact fits_or_unknown_family8 h
  · by_cases hn : w.n = 0x0#4
    · exact .inl ⟨.sneReg 0 0, fits_of_op_n rfl rfl h hn⟩
    · exact .inr (decode_op5_op9_unknown hn (.inr h))
  · exact .inl ⟨.ldI 0, fits_of_op rfl rfl h⟩
  · exact .inl ⟨.jpV0 0, fits_of_op rfl rfl h⟩
  · exact .inl ⟨.rnd 0 0, fits_of_op rfl rfl h⟩
  · exact .inl ⟨.drw 0 0 0, fits_of_op rfl rfl h⟩
  · rw [decode_opE h]; exact fits_or_unknown_familyE h
  · rw [decode_opF h]; exact fits_or_unknown_familyF h

/-- Settles O3: a word that fits a row is put together again from its fields, and one that fits none decodes to no
instruction. -/
theorem encodeOfDecodedIsTheWord : Obligations.EncodeOfDecodedIsTheWord := by
  unfold Obligations.EncodeOfDecodedIsTheWord
  intro w i hdec
  obtain ⟨j, hfits⟩ | hunknown := fits_or_unknown w
  · have hi : withFieldsOf j w = i := Decoded.instr.inj ((decode_of_fits hfits).symm.trans hdec)
    exact hi ▸ encode_withFieldsOf hfits
  · rw [hunknown] at hdec
    cases hdec

/-! ## The rows of the map -/

/-- One instruction of each row, in the table's order. -/
def rowInstrs : List Instr :=
  [.cls, .ret, .jp 0, .call 0, .seImm 0 0, .sneImm 0 0, .seReg 0 0, .ldImm 0 0, .addImm 0 0, .ldReg 0 0, .orReg 0 0,
   .andReg 0 0, .xorReg 0 0, .addReg 0 0, .subReg 0 0, .shr 0 0, .subnReg 0 0, .shl 0 0, .sneReg 0 0, .ldI 0, .jpV0 0,
   .rnd 0 0, .drw 0 0 0, .skp 0, .sknp 0, .ldVxDT 0, .ldVxK 0, .ldDTVx 0, .ldSTVx 0, .addI 0, .ldF 0, .ldB 0, .store 0,
   .load 0]

theorem opcodeRows_eq : opcodeRows = rowInstrs.map Instr.row := rfl

/-- A word that fits a row of the map decodes to an instruction of that row. -/
theorem decode_of_row_fits {r : OpcodeRow} {w : Word} (hr : r ∈ opcodeRows) (hfits : r.fits w = true) :
    ∃ i : Instr, decode w = .instr i ∧ i.row = r := by
  rw [opcodeRows_eq, List.mem_map] at hr
  obtain ⟨i, -, rfl⟩ := hr
  exact ⟨withFieldsOf i w, decode_of_fits hfits, row_withFieldsOf i w⟩

/-- Settles O4: a word decodes to an instruction of whatever row fits it; decoding gives one answer, so one row at most
fits; and a word that fits no row is UNKNOWN. -/
theorem decodeFollowsTheOpcodeMap : Obligations.DecodeFollowsTheOpcodeMap := by
  unfold Obligations.DecodeFollowsTheOpcodeMap
  refine fun w => ⟨?decoded, fun r hr => decode_of_row_fits hr, ?unique, ?unknown⟩
  case decoded =>
    intro i hdec
    rw [← encodeOfDecodedIsTheWord w i hdec]
    exact encode_fits_row i
  case unique =>
    intro r hr r' hr' hfits hfits'
    obtain ⟨i, hdec, rfl⟩ := decode_of_row_fits hr hfits
    obtain ⟨i', hdec', rfl⟩ := decode_of_row_fits hr' hfits'
    rw [Decoded.instr.inj (hdec.symm.trans hdec')]
  case unknown =>
    intro hnone
    obtain ⟨i, hfits⟩ | hunknown := fits_or_unknown w
    · obtain ⟨hmem, -⟩ := encode_fits_row i
      exact absurd (hnone i.row hmem) (by simp [hfits])
    · exact hunknown

/-- Settles O1: each word is decoded by evaluation. -/
theorem patternWordsDecode : Obligations.PatternWordsDecode := by
  unfold Obligations.PatternWordsDecode
  decide

/-! ## The unknown words -/

theorem decodeFamily0_eq_unknown {w : Word} :
    decodeFamily0 w = .unknown w ↔ w ≠ 0x00E0#16 ∧ w ≠ 0x00EE#16 := by
  unfold decodeFamily0
  split_ifs <;> simp [*]

theorem decodeFamily8_eq_unknown {w : Word} : decodeFamily8 w = .unknown w ↔
    w.n ∈ [0x8#4, 0x9#4, 0xA#4, 0xB#4, 0xC#4, 0xD#4, 0xF#4] := by
  obtain h | h | h | h | h | h | h | h | h | h | h | h | h | h | h | h := nibble_cases w.n <;>
    simp [decodeFamily8, h]

theorem decodeFamilyE_eq_unknown {w : Word} : decodeFamilyE w = .unknown w ↔ w.kk ∉ [0x9E#8, 0xA1#8] := by
  unfold decodeFamilyE
  split_ifs <;> simp [*]

theorem decodeFamilyF_eq_unknown {w : Word} : decodeFamilyF w = .unknown w ↔
    w.kk ∉ [0x07#8, 0x0A#8, 0x15#8, 0x18#8, 0x1E#8, 0x29#8, 0x33#8, 0x55#8, 0x65#8] := by
  unfold decodeFamilyF
  split_ifs <;> simp [*]

/-- Settles O5: each family has its own unknown words, and executing one applies the directive Next alone. -/
theorem unknownWordsOnlyAdvanceThePc : Obligations.UnknownWordsOnlyAdvanceThePc := by
  unfold Obligations.UnknownWordsOnlyAdvanceThePc
  refine fun w => ⟨?listed, fun s hdec => ?executed⟩
  case listed =>
    obtain h | h | h | h | h | h | h | h | h | h | h | h | h | h | h | h := nibble_cases w.op
    · rw [decode_op0 h, decodeFamily0_eq_unknown]; simp [h]
    · simp [decode_op1 h, h]
    · simp [decode_op2 h, h]
    · simp [decode_op3 h, h]
    · simp [decode_op4 h, h]
    · simp [decode_op5 h, h]
    · simp [decode_op6 h, h]
    · simp [decode_op7 h, h]
    · rw [decode_op8 h, decodeFamily8_eq_unknown]; simp [h]
    · simp [decode_op9 h, h]
    · simp [decode_opA h, h]
    · simp [decode_opB h, h]
    · simp [decode_opC h, h]
    · simp [decode_opD h, h]
    · rw [decode_opE h, decodeFamilyE_eq_unknown]; simp [h]
    · rw [decode_opF h, decodeFamilyF_eq_unknown]; simp [h]
  case executed =>
    simp only [execWord, hdec]
    rfl

end Sys2Proof.Machine
end

-- Proofs: how an instruction ends (40_cycle.md R106, R107, 60_exceptions.md R232 to R241)
section

namespace Sys2Proof.Machine

/-! ## The instructions that can raise, case by case -/

theorem exec_call_push (nnn : Addr12) {s : State} (h : s.sp.val < 16) :
    exec (.call nnn) s = State.finish
      { s with stack := s.stack.set s.sp.val (s.pc + 2) h, sp := ⟨s.sp.val + 1, by omega⟩ } (.jump (addrOf nnn)) := by
  simp only [exec, execCall, State.push_eq s _ h]
  rfl

theorem exec_call_full (nnn : Addr12) {s : State} (h : ¬ s.sp.val < 16) :
    exec (.call nnn) s = s.raise .stackOverflow (encode (.call nnn)) := by
  simp only [exec, execCall, State.push_full s _ h]

theorem exec_ret_pop {s : State} (h : 0 < s.sp.val) :
    exec .ret s = State.finish { s with sp := ⟨s.sp.val - 1, by omega⟩ } (.jump (s.stack[s.sp.val - 1]'(by omega))) := by
  simp only [exec, execRet, State.pop_eq s h]

theorem exec_ret_empty {s : State} (h : ¬ 0 < s.sp.val) : exec .ret s = s.raise .stackUnderflow (encode .ret) := by
  simp only [exec, execRet, State.pop_empty s h]

/-- A draw of rows that could be read. -/
theorem exec_drw_some {x y : Reg} {n : Nibble} {s : State} {rows : List Byte}
    (h : s.memReadBlock (s.ea 0) n.toNat = some rows) :
    exec (.drw x y n) s = State.finish
      { (s.setReg VF (flagByte (Blit.drawRows (s.fb, false) (s.reg x) (s.reg y) 0 rows).2)) with
        fb := (Blit.drawRows (s.fb, false) (s.reg x) (s.reg y) 0 rows).1, frameDirty := true } .next := by
  simp only [exec, execDrw, h]

theorem exec_drw_none {x y : Reg} {n : Nibble} {s : State} (h : s.memReadBlock (s.ea 0) n.toNat = none) :
    exec (.drw x y n) s = s.raise .dataReadOutOfRange (encode (.drw x y n)) := by
  simp only [exec, execDrw, h]

theorem exec_load_some {x : Reg} {s : State} {bs : List Byte} (h : s.memReadBlock (s.ea 0) (x.val + 1) = some bs) :
    exec (.load x) s = ((s.setRegsFrom 0 bs).advanceI x).finish .next := by
  simp only [exec, execLoad, h]

theorem exec_load_none {x : Reg} {s : State} (h : s.memReadBlock (s.ea 0) (x.val + 1) = none) :
    exec (.load x) s = s.raise .dataReadOutOfRange (encode (.load x)) := by
  simp only [exec, execLoad, h]

theorem exec_skp_some {x : Reg} {s : State} {down : Bool} (h : s.keyPressed (s.reg x) = some down) :
    exec (.skp x) s = s.finish (.skipIf down) := by
  simp only [exec, execSkp, h]

theorem exec_skp_none {x : Reg} {s : State} (h : s.keyPressed (s.reg x) = none) :
    exec (.skp x) s = s.raise .keyIndexOutOfRange (encode (.skp x)) := by
  simp only [exec, execSkp, h]

theorem exec_sknp_some {x : Reg} {s : State} {down : Bool} (h : s.keyPressed (s.reg x) = some down) :
    exec (.sknp x) s = s.finish (.skipIf (!down)) := by
  simp only [exec, execSknp, h]

theorem exec_sknp_none {x : Reg} {s : State} (h : s.keyPressed (s.reg x) = none) :
    exec (.sknp x) s = s.raise .keyIndexOutOfRange (encode (.sknp x)) := by
  simp only [exec, execSknp, h]

/-! ## Every instruction raises or completes -/

/-- Where an instruction that runs in `s` can send the pc (40_cycle.md R107). -/
inductive State.Directs (s : State) : Directive → Prop
  | next : s.Directs .next
  | skip : s.Directs .skip
  | jump (nnn : Addr12) : s.Directs (.jump (addrOf nnn))
  | jumpV0 (nnn : Addr12) : s.Directs (.jump (addrOf nnn + wordOf (s.reg 0)))
  | ret (n : Nat) (h : n < 16) : s.Directs (.jump s.stack[n])

theorem State.directs_skipIf (s : State) (b : Bool) : s.Directs (.skipIf b) := by
  cases b
  · exact .next
  · exact .skip

/-- The fatal fault that an instruction raises, and its condition (60_exceptions.md R235 to R240). -/
def MayRaise (i : Instr) (s : State) (c : FaultCode) : Prop :=
  match i with
  | .call _ => c = .stackOverflow ∧ s.sp = 16
  | .ret => c = .stackUnderflow ∧ s.sp = 0
  | .drw _ _ n => c = .dataReadOutOfRange ∧ s.cfg.oobRead = .fault ∧ 0 < n.toNat ∧ memSize ≤ s.ea (n.toNat - 1)
  | .load x => c = .dataReadOutOfRange ∧ s.cfg.oobRead = .fault ∧ memSize ≤ s.ea x.val
  | .skp x | .sknp x => c = .keyIndexOutOfRange ∧ s.cfg.keyIndex = .fault ∧ 15 < (s.reg x).toNat
  | _ => False

/-- The state `t` and the directive that an instruction completes with, before the directive is applied: the pc and the
fault record are not its own to write, and memory only that of `Fx33` and `Fx55`. -/
structure Completion (i : Instr) (s t : State) (d : Directive) : Prop where
  pc : t.pc = s.pc
  fault : t.fault = s.fault
  mem : t.mem = s.mem ∨ ∃ x, i = .ldB x ∨ i = .store x
  directs : s.Directs d

theorem Completion.of_skipIf (i : Instr) (s : State) (b : Bool) : Completion i s s (.skipIf b) :=
  ⟨rfl, rfl, .inl rfl, s.directs_skipIf b⟩

theorem Completion.of_setRegLogic (i : Instr) (s : State) (x : Reg) (b : Byte) :
    Completion i s (s.setRegLogic x b) .next :=
  ⟨s.setRegLogic_pc x b, s.setRegLogic_fault x b, .inl (s.setRegLogic_mem x b), .next⟩

theorem sp_eq_sixteen {sp : Fin 17} (h : ¬ sp.val < 16) : sp = 16 := by
  apply Fin.ext
  have : sp.val = 16 := by omega
  exact this

theorem sp_eq_zero {sp : Fin 17} (h : ¬ 0 < sp.val) : sp = 0 := by
  apply Fin.ext
  have : sp.val = 0 := by omega
  exact this

/-- Every instruction raises the fault of its own that its condition allows, or completes. -/
theorem exec_cases (i : Instr) (s : State) :
    (∃ c, MayRaise i s c ∧ exec i s = s.raise c (encode i)) ∨ ∃ t d, exec i s = t.finish d ∧ Completion i s t d := by
  cases i
  case call nnn =>
    by_cases h : s.sp.val < 16
    · exact .inr ⟨_, _, exec_call_push nnn h, ⟨rfl, rfl, .inl rfl, .jump nnn⟩⟩
    · exact .inl ⟨_, ⟨rfl, sp_eq_sixteen h⟩, exec_call_full nnn h⟩
  case ret =>
    by_cases h : 0 < s.sp.val
    · exact .inr ⟨_, _, exec_ret_pop h, ⟨rfl, rfl, .inl rfl, .ret (s.sp.val - 1) (by omega)⟩⟩
    · exact .inl ⟨_, ⟨rfl, sp_eq_zero h⟩, exec_ret_empty h⟩
  case drw x y n =>
    cases h : s.memReadBlock (s.ea 0) n.toNat with
    | some rows => exact .inr ⟨_, _, exec_drw_some h, ⟨rfl, rfl, .inl rfl, .next⟩⟩
    | none => exact .inl ⟨_, ⟨rfl, State.memReadBlock_none h⟩, exec_drw_none h⟩
  case load x =>
    cases h : s.memReadBlock (s.ea 0) (x.val + 1) with
    | some bs => exact .inr ⟨_, _, exec_load_some h, ⟨by simp, by simp, .inl (by simp), .next⟩⟩
    | none =>
      obtain ⟨hpolicy, -, hlast⟩ := State.memReadBlock_none h
      exact .inl ⟨_, ⟨rfl, hpolicy, hlast⟩, exec_load_none h⟩
  case skp x =>
    cases h : s.keyPressed (s.reg x) with
    | some down => exact .inr ⟨_, _, exec_skp_some h, Completion.of_skipIf _ s down⟩
    | none => exact .inl ⟨_, ⟨rfl, State.keyPressed_none h⟩, exec_skp_none h⟩
  case sknp x =>
    cases h : s.keyPressed (s.reg x) with
    | some down => exact .inr ⟨_, _, exec_sknp_some h, Completion.of_skipIf _ s !down⟩
    | none => exact .inl ⟨_, ⟨rfl, State.keyPressed_none h⟩, exec_sknp_none h⟩
  all_goals right
  case jp nnn => exact ⟨_, _, rfl, ⟨rfl, rfl, .inl rfl, .jump nnn⟩⟩
  case jpV0 nnn => exact ⟨_, _, rfl, ⟨rfl, rfl, .inl rfl, .jumpV0 nnn⟩⟩
  case seImm | sneImm | seReg | sneReg => exact ⟨_, _, rfl, Completion.of_skipIf _ s _⟩
  case orReg | andReg | xorReg => exact ⟨_, _, rfl, Completion.of_setRegLogic _ s _ _⟩
  case ldB x => exact ⟨_, _, rfl, ⟨rfl, rfl, .inr ⟨x, .inl rfl⟩, .next⟩⟩
  case store x => exact ⟨_, _, rfl, ⟨State.advanceI_pc _ x, State.advanceI_fault _ x, .inr ⟨x, .inr rfl⟩, .next⟩⟩
  all_goals exact ⟨_, _, rfl, ⟨rfl, rfl, .inl rfl, .next⟩⟩

/-- What an instruction that answers `t` did: it raised and wrote the record alone, or it completed. -/
theorem exec_next_cases {i : Instr} {s t : State} (h : exec i s = .next t) :
    (∃ c, MayRaise i s c ∧ t = { s with fault := some { code := c, pc := s.pc, word := encode i } }) ∨
    ∃ u d, Completion i s u d ∧ t = { u with pc := d.target s.pc } := by
  obtain ⟨c, hmay, hexec⟩ | ⟨u, d, hexec, hdone⟩ := exec_cases i s
  · exact .inl ⟨c, hmay, State.raise_next (hexec ▸ h)⟩
  · exact .inr ⟨u, d, hdone, hdone.pc ▸ State.finish_next (hexec ▸ h)⟩

/-- Every instruction answers a next state. -/
theorem exec_next (i : Instr) (s : State) : ∃ t, exec i s = .next t := by
  obtain ⟨c, -, hexec⟩ | ⟨u, d, hexec, -⟩ := exec_cases i s
  · exact ⟨_, hexec⟩
  · exact ⟨_, hexec⟩

/-! ## Faults -/

/-- Settles O16: a completion keeps the record empty, and a raise writes it alone, under the condition of its
instruction. -/
theorem faultsArePrecise : Obligations.FaultsArePrecise := by
  unfold Obligations.FaultsArePrecise
  intro i s t hsafe hexec
  obtain ⟨c, hmay, ht⟩ | ⟨u, d, hdone, rfl⟩ := exec_next_cases hexec
  · refine .inr ⟨c, ht, ?_⟩
    cases i
    case call nnn =>
      obtain ⟨rfl, hsp⟩ := hmay
      exact .inl ⟨rfl, ⟨nnn, rfl⟩, hsp⟩
    case ret =>
      obtain ⟨rfl, hsp⟩ := hmay
      exact .inr (.inl ⟨rfl, rfl, hsp⟩)
    case drw x y n =>
      obtain ⟨rfl, hpolicy, hn, hlast⟩ := hmay
      refine .inr (.inr (.inl ⟨rfl, hpolicy, .inl ⟨x, y, n, rfl, ?_, hn⟩⟩))
      simp only [State.ea, memSize] at hlast
      omega
    case load x =>
      obtain ⟨rfl, hpolicy, hlast⟩ := hmay
      exact .inr (.inr (.inl ⟨rfl, hpolicy, .inr ⟨x, rfl, hlast⟩⟩))
    case skp x =>
      obtain ⟨rfl, hpolicy, hkey⟩ := hmay
      exact .inr (.inr (.inr ⟨rfl, hpolicy, x, .inl rfl, hkey⟩))
    case sknp x =>
      obtain ⟨rfl, hpolicy, hkey⟩ := hmay
      exact .inr (.inr (.inr ⟨rfl, hpolicy, x, .inr rfl, hkey⟩))
    all_goals exact hmay.elim
  · exact .inl (hdone.fault.trans hsafe)

/-! ## Who writes what -/

/-- An element that neither `touches` nor a raise names is as before. -/
theorem exec_keeps {α : Type} (f : State → α) {i : Instr} {s t : State} (h : exec i s = .next t)
    (hframe : Frame (touches i s) s t → f t = f s) (hraise : ∀ r, f { s with fault := r } = f s) : f t = f s := by
  obtain hf | ⟨c, rfl⟩ := exec_frame h
  · exact hframe hf
  · exact hraise _

theorem exec_dt_eq {i : Instr} {s t : State} (h : exec i s = .next t) (hi : (touches i s).dt = false) : t.dt = s.dt :=
  exec_keeps State.dt h (fun hf => hf.dt hi) fun _ => rfl

theorem exec_st_eq {i : Instr} {s t : State} (h : exec i s = .next t) (hi : (touches i s).st = false) : t.st = s.st :=
  exec_keeps State.st h (fun hf => hf.st hi) fun _ => rfl

theorem exec_sp_eq {i : Instr} {s t : State} (h : exec i s = .next t) (hi : (touches i s).sp = false) : t.sp = s.sp :=
  exec_keeps State.sp h (fun hf => hf.sp hi) fun _ => rfl

theorem exec_i_eq {i : Instr} {s t : State} (h : exec i s = .next t) (hi : (touches i s).i = false) : t.i = s.i :=
  exec_keeps State.i h (fun hf => hf.i hi) fun _ => rfl

theorem exec_fb_eq {i : Instr} {s t : State} (h : exec i s = .next t) (hi : (touches i s).display = false) :
    t.fb = s.fb :=
  exec_keeps State.fb h (fun hf => hf.fb hi) fun _ => rfl

theorem exec_frameDirty_eq {i : Instr} {s t : State} (h : exec i s = .next t) (hi : (touches i s).display = false) :
    t.frameDirty = s.frameDirty :=
  exec_keeps State.frameDirty h (fun hf => hf.frameDirty hi) fun _ => rfl

theorem exec_inputWait_eq {i : Instr} {s t : State} (h : exec i s = .next t) (hi : (touches i s).inputWait = false) :
    t.inputWait = s.inputWait :=
  exec_keeps State.inputWait h (fun hf => hf.inputWait hi) fun _ => rfl

theorem exec_stack_getElem_eq {i : Instr} {s t : State} (h : exec i s = .next t) {n : Nat} (hn : n < 16)
    (hi : n ∉ (touches i s).stack) : t.stack[n] = s.stack[n] :=
  exec_keeps (fun u => u.stack[n]) h (fun hf => hf.stack n hn hi) fun _ => rfl

theorem exec_reg_eq {i : Instr} {s t : State} (h : exec i s = .next t) {r : Reg} (hi : r ∉ (touches i s).regs) :
    t.reg r = s.reg r :=
  exec_keeps (fun u => u.reg r) h (fun hf => hf.regs r hi) fun _ => rfl

theorem exec_key_eq {i : Instr} {s t : State} (h : exec i s = .next t) : t.key = s.key :=
  exec_keeps State.key h (fun hf => hf.key) fun _ => rfl

theorem exec_rnd_eq {i : Instr} {s t : State} (h : exec i s = .next t) : t.rnd = s.rnd :=
  exec_keeps State.rnd h (fun hf => hf.rnd) fun _ => rfl

theorem exec_cfg_eq {i : Instr} {s t : State} (h : exec i s = .next t) : t.cfg = s.cfg :=
  exec_keeps State.cfg h (fun hf => hf.cfg) fun _ => rfl

/-! ### The instructions that name an element, read off `touches` -/

theorem touches_stack (i : Instr) (s : State) : (touches i s).stack = [] ∨ ∃ nnn, i = .call nnn := by
  cases i
  case call nnn => exact .inr ⟨nnn, rfl⟩
  all_goals exact .inl rfl

theorem touches_sp (i : Instr) (s : State) : (touches i s).sp = false ∨ (∃ nnn, i = .call nnn) ∨ i = .ret := by
  cases i
  case call nnn => exact .inr (.inl ⟨nnn, rfl⟩)
  case ret => exact .inr (.inr rfl)
  all_goals exact .inl rfl

theorem touches_i (i : Instr) (s : State) : (touches i s).i = false ∨
    (∃ nnn, i = .ldI nnn) ∨ (∃ x, i = .addI x ∨ i = .ldF x) ∨
      (s.cfg.loadStoreAdvancesI = true ∧ ∃ x, i = .store x ∨ i = .load x) := by
  cases i
  case ldI nnn => exact .inr (.inl ⟨nnn, rfl⟩)
  case addI x => exact .inr (.inr (.inl ⟨x, .inl rfl⟩))
  case ldF x => exact .inr (.inr (.inl ⟨x, .inr rfl⟩))
  case store x | load x => cases h : s.cfg.loadStoreAdvancesI <;> simp [touches, h]
  all_goals exact .inl rfl

theorem touches_dt (i : Instr) (s : State) : (touches i s).dt = false ∨ ∃ x, i = .ldDTVx x := by
  cases i
  case ldDTVx x => exact .inr ⟨x, rfl⟩
  all_goals exact .inl rfl

theorem touches_st (i : Instr) (s : State) : (touches i s).st = false ∨ ∃ x, i = .ldSTVx x := by
  cases i
  case ldSTVx x => exact .inr ⟨x, rfl⟩
  all_goals exact .inl rfl

theorem touches_display (i : Instr) (s : State) :
    (touches i s).display = false ∨ i = .cls ∨ ∃ x y n, i = .drw x y n := by
  cases i
  case cls => exact .inr (.inl rfl)
  case drw x y n => exact .inr (.inr ⟨x, y, n, rfl⟩)
  all_goals exact .inl rfl

theorem touches_inputWait (i : Instr) (s : State) : (touches i s).inputWait = false ∨ ∃ x, i = .ldVxK x := by
  cases i
  case ldVxK x => exact .inr ⟨x, rfl⟩
  all_goals exact .inl rfl

/-- Settles O17: all other instructions leave the stack entries and `sp` out of what they touch. -/
theorem onlyCallAndReturnUseTheStack : Obligations.OnlyCallAndReturnUseTheStack := by
  unfold Obligations.OnlyCallAndReturnUseTheStack
  refine fun i s t hexec => ⟨fun hne => ?stack, fun hne => ?sp⟩
  case stack =>
    refine (touches_stack i s).resolve_left fun hi => hne ?_
    exact Vector.ext fun n hn => exec_stack_getElem_eq hexec hn (hi ▸ List.not_mem_nil)
  case sp => exact (touches_sp i s).resolve_left fun hi => hne (exec_sp_eq hexec hi)

/-- Settles O18: all other instructions complete with the memory they found, and leave `I` out of what they touch. -/
theorem onlyStoresWriteMemoryOnlyIndexOpsWriteI : Obligations.OnlyStoresWriteMemoryOnlyIndexOpsWriteI := by
  unfold Obligations.OnlyStoresWriteMemoryOnlyIndexOpsWriteI
  refine fun i s t hexec => ⟨fun hne => ?mem, fun hne => ?i⟩
  case mem =>
    obtain ⟨c, -, rfl⟩ | ⟨u, d, hdone, rfl⟩ := exec_next_cases hexec
    · exact absurd rfl hne
    · exact hdone.mem.resolve_left hne
  case i => exact (touches_i i s).resolve_left fun hi => hne (exec_i_eq hexec hi)

/-- Settles O19: each of these elements is touched by its own instructions alone. -/
theorem onlyTheirInstructionsWriteTimersDisplayAndLatch :
    Obligations.OnlyTheirInstructionsWriteTimersDisplayAndLatch := by
  unfold Obligations.OnlyTheirInstructionsWriteTimersDisplayAndLatch
  refine fun i s t hexec => ⟨fun hne => ?dt, fun hne => ?st, fun hne => ?display, fun hne => ?inputWait⟩
  case dt => exact (touches_dt i s).resolve_left fun hi => hne (exec_dt_eq hexec hi)
  case st => exact (touches_st i s).resolve_left fun hi => hne (exec_st_eq hexec hi)
  case display =>
    refine (touches_display i s).resolve_left fun hi => ?_
    exact hne.elim (· (exec_fb_eq hexec hi)) (· (exec_frameDirty_eq hexec hi))
  case inputWait => exact (touches_inputWait i s).resolve_left fun hi => hne (exec_inputWait_eq hexec hi)

/-! ## The flag register (10_state.md R22) -/

theorem flagByte_eq_zero_or_one (f : Bool) : flagByte f = 0 ∨ flagByte f = 1 := by
  cases f
  · exact .inl rfl
  · exact .inr rfl

/-- The flag is written last, so it stays for `x = 15` too (D10). -/
theorem State.setRegFlag_reg_VF (s : State) (x : Reg) (b : Byte) (f : Bool) :
    (s.setRegFlag x b f).reg VF = flagByte f := by
  rw [State.setRegFlag_reg, if_pos rfl]

/-- An instruction that writes a result and then the flag leaves the flag in `VF`. -/
theorem reg_VF_of_setRegFlag {i : Instr} {s t : State} {x : Reg} {b : Byte} {f : Bool}
    (h : exec i s = .next t) (hi : exec i s = (s.setRegFlag x b f).finish .next) : t.reg VF = 0 ∨ t.reg VF = 1 := by
  have ht : t.reg VF = (s.setRegFlag x b f).reg VF :=
    State.reg_congr (congrArg State.v (State.finish_next (hi.symm.trans h))) VF
  rw [ht, State.setRegFlag_reg_VF]
  exact flagByte_eq_zero_or_one f

/-- A draw that raises no fault leaves its collision flag in `VF`. -/
theorem reg_VF_of_drw {x y : Reg} {n : Nibble} {s t : State} (h : exec (.drw x y n) s = .next t) (hsafe : t.Safe) :
    t.reg VF = 0 ∨ t.reg VF = 1 := by
  cases hread : s.memReadBlock (s.ea 0) n.toNat with
  | none =>
    obtain rfl := State.raise_next (exec_drw_none hread ▸ h)
    cases hsafe
  | some rows =>
    obtain rfl := State.finish_next (exec_drw_some hread ▸ h)
    have hflag := State.setReg_reg_self s VF (flagByte (Blit.drawRows (s.fb, false) (s.reg x) (s.reg y) 0 rows).2)
    exact (flagByte_eq_zero_or_one _).imp hflag.trans hflag.trans

/-- An instruction of which `VF` is not the one destination leaves it alone. -/
theorem reg_VF_of_regs_singleton {i : Instr} {s t : State} {x : Reg} (h : exec i s = .next t)
    (hi : (touches i s).regs = [x]) (hx : x ≠ VF) : t.reg VF = s.reg VF :=
  exec_reg_eq h (by rw [hi, List.mem_singleton]; exact hx.symm)

/-- A logic instruction clears `VF` under LOGIC_CLEARS_VF and otherwise leaves it alone (D11). -/
theorem reg_VF_of_setRegLogic {i : Instr} {s t : State} {x : Reg} {b : Byte} (h : exec i s = .next t)
    (hi : exec i s = (s.setRegLogic x b).finish .next) (hx : x ≠ VF) :
    t.reg VF = if s.cfg.logicClearsVF then 0 else s.reg VF := by
  have ht : t.reg VF = (s.setRegLogic x b).reg VF :=
    State.reg_congr (congrArg State.v (State.finish_next (hi.symm.trans h))) VF
  rw [ht, State.setRegLogic_reg]
  simp [hx.symm]

/-- `Fx65` loads `VF` for `x = 15` alone. -/
theorem reg_VF_of_load {x : Reg} {s t : State} (h : exec (.load x) s = .next t) (hx : x ≠ VF) : t.reg VF = s.reg VF := by
  refine exec_reg_eq h fun hmem => hx ?_
  have hle : VF ≤ x := by simpa [touches] using hmem
  exact (Fin.last_le_iff (n := 15)).mp hle

/-- Settles O20: the flag-setting instructions write the flag last; the others touch at most their own register, the
logic instructions apart. -/
theorem flagInstructionsAloneSetVF : Obligations.FlagInstructionsAloneSetVF := by
  unfold Obligations.FlagInstructionsAloneSetVF
  intro i s t hexec hsafe
  cases i
  case addReg | subReg | shr | subnReg | shl => exact reg_VF_of_setRegFlag hexec rfl
  case drw => exact reg_VF_of_drw hexec hsafe
  case ldImm | addImm | ldReg | rnd | ldVxDT => exact reg_VF_of_regs_singleton hexec rfl
  case orReg | andReg | xorReg => exact reg_VF_of_setRegLogic hexec rfl
  case load => exact reg_VF_of_load hexec
  all_goals exact exec_reg_eq hexec List.not_mem_nil

end Sys2Proof.Machine
end

-- Proofs: one cycle (40_cycle.md)
section

namespace Sys2Proof.Machine

/-! ## What one cycle can do -/

/-- What phases 1 to 3 of a cycle leave (40_cycle.md R100, R104): the ticked state, or that with a key stored in the
waiting register and the wait over. -/
inductive State.Prepares (s : State) : State → Prop
  | ticked : s.Prepares s.beginCycle
  | resolved (r : Reg) (b : Byte) : s.Prepares { (s.beginCycle.setReg r b) with inputWait := none }

theorem State.Prepares.mem {s u : State} (h : s.Prepares u) : u.mem = s.mem := by
  cases h <;> simp

theorem State.Prepares.pc {s u : State} (h : s.Prepares u) : u.pc = s.pc := by
  cases h <;> simp

theorem State.Prepares.stack {s u : State} (h : s.Prepares u) : u.stack = s.stack := by
  cases h <;> simp

theorem State.Prepares.key {s u : State} (h : s.Prepares u) : u.key = s.key := by
  cases h <;> simp

theorem State.Prepares.rnd {s u : State} (h : s.Prepares u) : u.rnd = s.rnd := by
  cases h <;> simp

theorem State.Prepares.cfg {s u : State} (h : s.Prepares u) : u.cfg = s.cfg := by
  cases h <;> simp

/-- The wait phase leaves a prepared state, whether the cycle ends there or goes on. -/
theorem State.waitPhase_cases (s : State) :
    ∃ u, s.Prepares u ∧ (s.beginCycle.waitPhase = .done u ∨ s.beginCycle.waitPhase = .proceed u) := by
  unfold State.waitPhase State.resolveWait
  cases s.beginCycle.inputWait with
  | none => exact ⟨_, .ticked, .inr rfl⟩
  | some r =>
    cases s.beginCycle.leastKey with
    | none => exact ⟨_, .ticked, .inl rfl⟩
    | some k =>
      refine ⟨_, .resolved r (BitVec.ofNat 8 k.val), ?_⟩
      cases s.beginCycle.cfg.resolveThenExecute <;> simp

/-- A cycle of a Faulted state answers that state; any other prepares and then ends or fetches and executes. -/
theorem step_cases (s : State) :
    step s = .next s ∨ ∃ u, s.Prepares u ∧ (step s = .next u ∨ step s = fetchExecute u) := by
  unfold step
  cases s.fault with
  | some r => exact .inl rfl
  | none =>
    obtain ⟨u, hprep, hphase | hphase⟩ := s.waitPhase_cases
    · exact .inr ⟨u, hprep, .inl (by rw [hphase])⟩
    · exact .inr ⟨u, hprep, .inr (by rw [hphase])⟩

/-- Phases 4 to 7: a fetch fault, or the meaning of the word fetched. -/
theorem fetchExecute_cases (s : State) :
    (fetchExecute s = s.raise .fetchOutOfRange 0#16) ∨
    (∃ w, s.fetch = some w) ∧ (fetchExecute s = execUnknown s ∨ ∃ i, fetchExecute s = exec i s) := by
  unfold fetchExecute execWord
  cases hfetch : s.fetch with
  | none => exact .inl rfl
  | some w =>
    refine .inr ⟨⟨w, rfl⟩, ?_⟩
    cases hdec : decode w with
    | instr i => exact .inr ⟨i, by simp only [hdec]⟩
    | unknown w' => exact .inl (by simp only [hdec])

/-- What a step keeps, packaged once: what phases 1 to 3 keep, a raise, the no-op of an unknown word and every instruction
that can be fetched. -/
theorem step_keeps {P : State → Prop} {s t : State} (h : step s = .next t) (hs : P s)
    (hprep : ∀ u, s.Prepares u → P u)
    (hraise : ∀ u c w, P u → P { u with fault := some { code := c, pc := u.pc, word := w } })
    (hunknown : ∀ u, P u → (∃ w, u.fetch = some w) → P { u with pc := u.pc + 2 })
    (hexec : ∀ u i v, P u → (∃ w, u.fetch = some w) → exec i u = .next v → P v) : P t := by
  obtain hsame | ⟨u, hu, hdone | hgoes⟩ := step_cases s
  · exact Host.Outcome.next.inj (hsame.symm.trans h) ▸ hs
  · exact Host.Outcome.next.inj (hdone.symm.trans h) ▸ hprep u hu
  · rw [hgoes] at h
    obtain hfault | ⟨hfetch, hunk | ⟨i, hi⟩⟩ := fetchExecute_cases u
    · exact State.raise_next (hfault.symm.trans h) ▸ hraise u _ _ (hprep u hu)
    · exact State.finish_next (hunk.symm.trans h) ▸ hunknown u (hprep u hu) hfetch
    · exact hexec u i t (hprep u hu) hfetch (hi.symm.trans h)

/-! ## The invariants -/

/-- Settles O58: only blocks of writes change memory, and a block of writes keeps the canonical form. -/
theorem stepKeepsMemoryCanonical : Obligations.StepKeepsMemoryCanonical := by
  unfold Obligations.StepKeepsMemoryCanonical
  intro s t hmem hstep
  refine step_keeps (P := State.MemCanonical) hstep hmem ?prepare (fun _ _ _ hu => hu) (fun _ hu _ => hu) ?execute
  case prepare => exact fun u hu => (congrArg Memory.wf hu.mem).trans hmem
  case execute =>
    intro u i v hu _ hexec
    obtain hsame | ⟨a, bs, hblock⟩ := exec_mem hexec
    · exact (congrArg Memory.wf hsame).trans hu
    · exact (congrArg Memory.wf hblock).trans (Memory.writeBlock_wf a bs hu)

/-- A fetch under OOB_READ_POLICY = fault finds both its bytes. -/
theorem State.pc_lt_of_fetch {s : State} (hpolicy : s.cfg.oobRead = .fault) (h : ∃ w, s.fetch = some w) :
    s.pc.toNat + 1 < memSize := by
  obtain ⟨w, hw⟩ := h
  by_contra hout
  rw [State.fetch, if_neg (by simp [hpolicy, hout])] at hw
  cases hw

/-- The target of `Bnnn` does not wrap: it is at most 0x10FE (D7). -/
theorem addrOf_add_wordOf_toNat (nnn : Addr12) (b : Byte) : (addrOf nnn + wordOf b).toNat = nnn.toNat + b.toNat := by
  have hnnn := nnn.isLt
  have hb := b.isLt
  rw [BitVec.toNat_add, addrOf_toNat, wordOf_toNat]
  omega

/-- No target of a fetched instruction passes 0x10FE (40_cycle.md R107; D7). -/
theorem State.PcBounded.target_le {s : State} (hs : s.PcBounded) (hpc : s.pc.toNat + 1 < memSize) {d : Directive}
    (hd : s.Directs d) : (d.target s.pc).toNat ≤ 0x10FE := by
  simp only [memSize] at hpc
  cases hd with
  | next => simp only [Directive.target]; bv_omega
  | skip => simp only [Directive.target]; bv_omega
  | jump nnn =>
    have := nnn.isLt
    simp only [Directive.target, addrOf_toNat]
    omega
  | jumpV0 nnn =>
    have hnnn := nnn.isLt
    have hV0 := (s.reg 0).isLt
    simp only [Directive.target, addrOf_add_wordOf_toNat]
    omega
  | ret n h => exact (hs.stack n h).trans (by decide)

/-- An instruction leaves a stack entry as it was, or stores there the address of the next instruction. -/
theorem exec_stack_getElem_cases {i : Instr} {s t : State} (h : exec i s = .next t) {n : Nat} (hn : n < 16) :
    t.stack[n] = s.stack[n] ∨ t.stack[n] = s.pc + 2 := by
  obtain hnone | ⟨nnn, rfl⟩ := touches_stack i s
  · exact .inl (exec_stack_getElem_eq h hn (hnone ▸ List.not_mem_nil))
  · by_cases hsp : n = s.sp.val
    · subst hsp
      obtain rfl := State.finish_next ((exec_call_push nnn hn).symm.trans h)
      exact .inr (Vector.getElem_set_self _)
    · exact .inl (exec_stack_getElem_eq h hn (by simpa [touches] using hsp))

/-- The pc after an instruction: where it was, or the target of one of the directives. -/
theorem exec_pc_cases {i : Instr} {s t : State} (h : exec i s = .next t) :
    t.pc = s.pc ∨ ∃ d, s.Directs d ∧ t.pc = d.target s.pc := by
  obtain ⟨c, -, rfl⟩ | ⟨u, d, hdone, rfl⟩ := exec_next_cases h
  · exact .inl rfl
  · exact .inr ⟨d, hdone.directs, rfl⟩

/-- A fetched instruction keeps the pc and the return addresses bounded. -/
theorem State.PcBounded.exec {i : Instr} {s t : State} (hs : s.PcBounded) (hpc : s.pc.toNat + 1 < memSize)
    (h : exec i s = .next t) : t.PcBounded := by
  refine ⟨exec_cfg_eq h ▸ hs.policy, ?pc, fun n hn => ?stack⟩
  case pc =>
    obtain hsame | ⟨d, hd, htarget⟩ := exec_pc_cases h
    · exact hsame ▸ hs.pc
    · exact htarget ▸ hs.target_le hpc hd
  case stack =>
    obtain hsame | hpush := exec_stack_getElem_cases h hn
    · exact hsame ▸ hs.stack n hn
    · simp only [memSize] at hpc
      rw [hpush]
      bv_omega

/-- Settles O59: what is fetched lies below 0xFFF, and from there every directive stays within the bound. -/
theorem stepKeepsThePcBounded : Obligations.StepKeepsThePcBounded := by
  unfold Obligations.StepKeepsThePcBounded
  intro s t hs hstep
  refine step_keeps (P := State.PcBounded) hstep hs ?prepare ?raise ?unknown ?execute
  case prepare => exact fun u hu => ⟨hu.cfg ▸ hs.policy, hu.pc ▸ hs.pc, hu.stack ▸ hs.stack⟩
  case raise => exact fun u c w hu => ⟨hu.policy, hu.pc, hu.stack⟩
  case unknown =>
    exact fun u hu hfetch => ⟨hu.policy, hu.target_le (State.pc_lt_of_fetch hu.policy hfetch) .next, hu.stack⟩
  case execute => exact fun u i v hu hfetch hexec => hu.exec (State.pc_lt_of_fetch hu.policy hfetch) hexec

/-- Settles O57: memory lists nothing, the pc is 0x200 and the stack entries are 0. -/
theorem constructionMeetsTheInvariants : Obligations.ConstructionMeetsTheInvariants := by
  unfold Obligations.ConstructionMeetsTheInvariants
  refine ⟨rfl, rfl, by decide, fun n hn => ?_⟩
  simp [State.reset]

/-- Settles O13: phases 1 to 3, a raise and every instruction keep the three elements. -/
theorem inputsAreNeverWritten : Obligations.InputsAreNeverWritten := by
  unfold Obligations.InputsAreNeverWritten
  intro s t hstep
  refine step_keeps (P := fun u => u.key = s.key ∧ u.rnd = s.rnd ∧ u.cfg = s.cfg) hstep ⟨rfl, rfl, rfl⟩ ?prepare
    (fun _ _ _ hu => hu) (fun _ hu _ => hu) ?execute
  case prepare => exact fun u hu => ⟨hu.key, hu.rnd, hu.cfg⟩
  case execute =>
    rintro u i v ⟨hkey, hrnd, hcfg⟩ - hexec
    exact ⟨(exec_key_eq hexec).trans hkey, (exec_rnd_eq hexec).trans hrnd, (exec_cfg_eq hexec).trans hcfg⟩

/-! ## Totality -/

/-- Settles O12: every way a cycle can end answers a next state. -/
theorem everyStepHasANextState : Obligations.EveryStepHasANextState := by
  unfold Obligations.EveryStepHasANextState
  intro s
  obtain hsame | ⟨u, -, hdone | hgoes⟩ := step_cases s
  · exact ⟨s, hsame⟩
  · exact ⟨u, hdone⟩
  · rw [hgoes]
    obtain hfault | ⟨-, hunknown | ⟨i, hexec⟩⟩ := fetchExecute_cases u
    · exact ⟨_, hfault⟩
    · exact ⟨_, hunknown⟩
    · exact hexec ▸ exec_next i u

theorem step_faulted {s : State} (h : s.Faulted) : step s = .next s := by
  obtain ⟨r, hr⟩ := Option.ne_none_iff_exists'.mp h
  simp only [step, hr]

/-- Settles O11: by induction on the number of cycles, each of which answers the same state. -/
theorem faultedChangesNothing : Obligations.FaultedChangesNothing := by
  unfold Obligations.FaultedChangesNothing
  intro n s hfaulted
  induction n with
  | zero => rfl
  | succ n ih =>
    have hstep : core.step s = .next s := step_faulted hfaulted
    simp only [Host.Core.run, hstep]
    exact ih

/-! ## A Running cycle -/

/-- Phases 4 to 7 on two bytes that exist (40_cycle.md R102). -/
theorem fetchExecute_inRange {s : State} (h : s.FetchInRange) : fetchExecute s = execWord s.wordAtPc s := by
  simp only [fetchExecute, State.fetch_inRange h]

/-- The word that phases 1 to 3 leave at the pc is the one that was there. -/
theorem step_running_inRange {s : State} (hrun : s.Running) (hin : s.FetchInRange) :
    step s = execWord s.wordAtPc s.afterTick :=
  (step_running hrun).trans (fetchExecute_inRange (s := s.afterTick) hin)

/-- Settles O6: the ticked state has the same word at its pc, which is executed as it decodes. -/
theorem stepRunsTheDecodedInstruction : Obligations.StepRunsTheDecodedInstruction := by
  unfold Obligations.StepRunsTheDecodedInstruction
  refine fun s hrun hin => ⟨fun i hdec => ?instr, fun w hdec => ?unknown⟩
  case instr => exact step_of_fetches ⟨hrun, hin, hdec⟩
  case unknown =>
    rw [step_running_inRange hrun hin, execWord, hdec]
    rfl

/-- Settles O9: neither byte of the fetch may be read, so the raise is all that follows phases 1 and 2. -/
theorem fetchBeyondMemoryFaults : Obligations.FetchBeyondMemoryFaults := by
  unfold Obligations.FetchBeyondMemoryFaults
  refine ⟨rfl, fun s hrun hpc hpolicy => ?_⟩
  have hfetch : s.afterTick.fetch = none :=
    if_neg (by simp only [State.afterTick_pc, State.afterTick_cfg, hpolicy, memSize]; simp; omega)
  rw [step_running hrun, fetchExecute, hfetch]
  rfl

/-- Settles O10: under the policy the two bytes of the fetch are always there, and that at 0xFFF is memory's. -/
theorem fetchBeyondMemoryMayBeFree : Obligations.FetchBeyondMemoryMayBeFree := by
  unfold Obligations.FetchBeyondMemoryMayBeFree
  intro s hrun hpc hpolicy
  refine ⟨s.afterTick.fetchByte s.pc.toNat, s.afterTick.fetchByte (s.pc.toNat + 1), fun hlast => ?high, ?executes⟩
  case high =>
    rw [hlast]
    exact if_pos (by decide)
  case executes =>
    have hfetch : s.afterTick.fetch =
        some (Word.ofBytes (s.afterTick.fetchByte s.pc.toNat) (s.afterTick.fetchByte (s.pc.toNat + 1))) :=
      if_pos (.inr hpolicy)
    rw [step_running hrun, fetchExecute, hfetch]

/-! ## Timers and `frame_dirty` over a Running cycle -/

/-- Settles O14: the cycle runs the instruction on the ticked state, whose registers are as before. -/
theorem timersTickOncePerCycle : Obligations.TimersTickOncePerCycle := by
  unfold Obligations.TimersTickOncePerCycle
  intro s t i hfetch hstep
  have hexec := (step_of_fetches hfetch).symm.trans hstep
  constructor
  · cases i
    case ldDTVx x => exact congrArg State.dt (State.finish_next hexec)
    all_goals exact exec_dt_eq hexec rfl
  · cases i
    case ldSTVx x => exact congrArg State.st (State.finish_next hexec)
    all_goals exact exec_st_eq hexec rfl

/-- An instruction that draws sets `frame_dirty`, unless it faults. -/
theorem frameDirty_of_draw {i : Instr} {s t : State} (h : exec i s = .next t) (hsafe : t.Safe)
    (hi : i = .cls ∨ ∃ x y n, i = .drw x y n) : t.frameDirty = true := by
  obtain rfl | ⟨x, y, n, rfl⟩ := hi
  · exact congrArg State.frameDirty (State.finish_next h)
  · cases hread : s.memReadBlock (s.ea 0) n.toNat with
    | none =>
      obtain rfl := State.raise_next ((exec_drw_none hread).symm.trans h)
      cases hsafe
    | some rows => exact congrArg State.frameDirty (State.finish_next ((exec_drw_some hread).symm.trans h))

/-- Settles O15: phase 1 clears the flag, a draw sets it, and no other instruction and no raise touches it. -/
theorem frameDirtyTellsADraw : Obligations.FrameDirtyTellsADraw := by
  unfold Obligations.FrameDirtyTellsADraw
  intro s t i hfetch hstep
  have hexec := (step_of_fetches hfetch).symm.trans hstep
  refine ⟨fun hsafe => ⟨fun hdirty => ?drew, frameDirty_of_draw hexec hsafe⟩, fun hfaulted => ?faulted⟩
  case drew =>
    refine (touches_display i s.afterTick).resolve_left fun hi => ?_
    rw [exec_frameDirty_eq hexec hi] at hdirty
    cases hdirty
  case faulted =>
    obtain ⟨⟨hsafe, -⟩, -⟩ := hfetch
    obtain hframe | ⟨c, rfl⟩ := exec_frame hexec
    · exact absurd (hframe.fault.trans hsafe) hfaulted
    · rfl

end Sys2Proof.Machine
end

-- Proofs: waiting for a key (40_cycle.md R104, 45_timers_input.md R217)
section

namespace Sys2Proof.Machine

/-! ## One cycle of an AwaitingInput state -/

/-- A waiting cycle with no key pressed ends after the wait phase. -/
theorem step_awaiting_noKey {s : State} {r : Reg} (h : s.Awaiting r) (hkeys : ∀ k : Fin 16, s.key[k.val] = false) :
    step s = .next s.beginCycle := by
  obtain ⟨hfault, hwait⟩ := h
  have hleast : s.beginCycle.leastKey = none := State.leastKey_none (by simpa using hkeys)
  simp only [step, hfault, State.waitPhase, State.beginCycle_inputWait, hwait, State.resolveWait, hleast]

/-- The state of a waiting cycle once the key `k` is stored and the latch cleared. -/
def State.resolved (s : State) (r : Reg) (k : Fin 16) : State :=
  { (s.beginCycle.setReg r (BitVec.ofNat 8 k.val)) with inputWait := none }

/-- A waiting cycle stores the least key pressed, and goes on to fetch exactly under RESOLVE_THEN_EXECUTE (D3, D4). -/
theorem step_awaiting_key {s : State} {r : Reg} (h : s.Awaiting r) {k : Fin 16} (hk : s.key[k.val] = true)
    (hlt : ∀ j : Fin 16, j < k → s.key[j.val] = false) :
    step s = if s.cfg.resolveThenExecute then fetchExecute (s.resolved r k) else .next (s.resolved r k) := by
  obtain ⟨hfault, hwait⟩ := h
  have hleast : s.beginCycle.leastKey = some k := State.leastKey_some (by simpa using hk) (by simpa using hlt)
  simp only [step, hfault, State.waitPhase, State.beginCycle_inputWait, hwait, State.resolveWait, hleast,
    State.beginCycle_cfg]
  cases s.cfg.resolveThenExecute <;> rfl

theorem State.resolved_eq {s : State} {r : Reg} (h : s.inputWait = some r) (k : Fin 16) :
    s.resolved r k = { (if s.cfg.tickWhileWaiting then s.afterTick else s.afterClear) with
      v := s.v.set r.val (BitVec.ofNat 8 k.val), inputWait := none } := by
  rw [State.resolved, State.beginCycle_awaiting h]
  cases s.cfg.tickWhileWaiting <;> rfl

theorem State.wordAtPc_resolved (s : State) (r : Reg) (k : Fin 16) : (s.resolved r k).wordAtPc = s.wordAtPc := by
  simp [State.wordAtPc, State.resolved]

theorem State.fetchInRange_resolved {s : State} (h : s.FetchInRange) (r : Reg) (k : Fin 16) :
    (s.resolved r k).FetchInRange := by
  simpa [State.resolved] using h

/-- Settles O7: the two parameters choose how the cycle begins and whether it goes on to fetch. -/
theorem waitPhaseStoresTheLeastKey : Obligations.WaitPhaseStoresTheLeastKey := by
  unfold Obligations.WaitPhaseStoresTheLeastKey
  intro s r hawait
  have hwait : s.inputWait = some r := hawait.2
  refine ⟨fun hkeys => ?noKey, fun k hk hlt => ?key⟩
  case noKey => rw [step_awaiting_noKey hawait hkeys, State.beginCycle_awaiting hwait]
  case key =>
    dsimp only
    rw [← State.resolved_eq hwait k, step_awaiting_key hawait hk hlt]
    refine ⟨fun hends => by simp [hends], fun hgoes hin => ?_⟩
    rw [if_pos hgoes, fetchExecute_inRange (State.fetchInRange_resolved hin r k), State.wordAtPc_resolved]

/-! ## Many cycles of an AwaitingInput state -/

@[simp] theorem State.withInput_mem (s : State) (inp : HostInput) : (s.withInput inp).mem = s.mem := rfl
@[simp] theorem State.withInput_pc (s : State) (inp : HostInput) : (s.withInput inp).pc = s.pc := rfl
@[simp] theorem State.withInput_fault (s : State) (inp : HostInput) : (s.withInput inp).fault = s.fault := rfl
@[simp] theorem State.withInput_cfg (s : State) (inp : HostInput) : (s.withInput inp).cfg = s.cfg := rfl

/-- From `s` to `t`, `n` cycles passed that only waited: the timers ticked exactly under TICK_WHILE_WAITING (D2). -/
structure Waits (n : Nat) (s t : State) : Prop where
  v : t.v = s.v
  pc : t.pc = s.pc
  i : t.i = s.i
  mem : t.mem = s.mem
  fb : t.fb = s.fb
  stack : t.stack = s.stack
  sp : t.sp = s.sp
  inputWait : t.inputWait = s.inputWait
  fault : t.fault = s.fault
  cfg : t.cfg = s.cfg
  dt : t.dt.toNat = if s.cfg.tickWhileWaiting then s.dt.toNat - n else s.dt.toNat
  st : t.st.toNat = if s.cfg.tickWhileWaiting then s.st.toNat - n else s.st.toNat

theorem Waits.refl (s : State) : Waits 0 s s := by
  constructor <;> simp

theorem Waits.trans {m n : Nat} {s t u : State} (h : Waits m s t) (h' : Waits n t u) : Waits (m + n) s u where
  v := h'.v.trans h.v
  pc := h'.pc.trans h.pc
  i := h'.i.trans h.i
  mem := h'.mem.trans h.mem
  fb := h'.fb.trans h.fb
  stack := h'.stack.trans h.stack
  sp := h'.sp.trans h.sp
  inputWait := h'.inputWait.trans h.inputWait
  fault := h'.fault.trans h.fault
  cfg := h'.cfg.trans h.cfg
  dt := by
    rw [h'.dt, h.dt, h.cfg]
    cases s.cfg.tickWhileWaiting <;> simp [Nat.sub_sub]
  st := by
    rw [h'.st, h.st, h.cfg]
    cases s.cfg.tickWhileWaiting <;> simp [Nat.sub_sub]

theorem Waits.awaiting {n : Nat} {s t : State} {r : Reg} (h : Waits n s t) (hs : s.Awaiting r) : t.Awaiting r :=
  ⟨h.fault.trans hs.1, h.inputWait.trans hs.2⟩

/-- Phases 1 and 2 of a waiting cycle, whatever the host's inputs, only wait. -/
theorem waits_beginCycle {s : State} {r : Reg} (hs : s.Awaiting r) (inp : HostInput) :
    Waits 1 s (s.withInput inp).beginCycle := by
  obtain ⟨-, hwait⟩ := hs
  rw [State.beginCycle_awaiting (s := s.withInput inp) hwait]
  constructor
  case dt | st => cases h : s.cfg.tickWhileWaiting <;> simp [State.withInput, h, ticked_toNat]
  all_goals cases h : s.cfg.tickWhileWaiting <;> simp [State.withInput, h]

/-- Cycles whose snapshots show no key only wait, by induction on the host's inputs. -/
theorem runCycles_noKey {inputs : List HostInput} {s : State} {r : Reg} (hs : s.Awaiting r)
    (hkeys : ∀ inp ∈ inputs, ∀ k : Fin 16, inp.keypad[k.val] = false) :
    ∃ t, runCycles inputs s = .next t ∧ Waits inputs.length s t := by
  induction inputs generalizing s with
  | nil => exact ⟨s, rfl, Waits.refl s⟩
  | cons inp rest ih =>
    obtain ⟨hinp, hrest⟩ := List.forall_mem_cons.mp hkeys
    have hcycle : cycle inp s = .next (s.withInput inp).beginCycle :=
      step_awaiting_noKey (s := s.withInput inp) hs hinp
    have hone := waits_beginCycle hs inp
    obtain ⟨t, hrun, hwaits⟩ := ih (hone.awaiting hs) hrest
    refine ⟨t, ?_, ?_⟩
    · simp only [runCycles, hcycle]
      exact hrun
    · rw [List.length_cons, Nat.add_comm]
      exact hone.trans hwaits

/-- A snapshot with key 0 pressed ends the wait with 0 stored, under RESOLVE_THEN_EXECUTE = false. -/
theorem cycle_key0 {s : State} {r : Reg} (hs : s.Awaiting r) (hresolve : s.cfg.resolveThenExecute = false)
    {last : HostInput} (hkey : last.keypad[0] = true) : cycle last s = .next ((s.withInput last).resolved r 0) := by
  rw [cycle, step_awaiting_key (s := s.withInput last) (k := 0) hs hkey fun j hj => absurd hj (Fin.not_lt_zero j)]
  exact if_neg (by simp [hresolve])

theorem State.resolved_reg (s : State) (r q : Reg) (k : Fin 16) :
    (s.resolved r k).reg q = if q = r then BitVec.ofNat 8 k.val else s.reg q := by
  have hset := State.setReg_reg s.beginCycle r q (BitVec.ofNat 8 k.val)
  rw [State.reg_congr (State.beginCycle_v s) q] at hset
  exact hset

/-- Settles O8: the cycles with no key only wait, and the least key of the last snapshot is 0. -/
theorem keyWaitLastsUntilAKey : Obligations.KeyWaitLastsUntilAKey := by
  unfold Obligations.KeyWaitLastsUntilAKey
  intro inputs last s r hs hresolve hkeys hkey
  obtain ⟨t, hrun, hwaits⟩ := runCycles_noKey hs hkeys
  have ht : t.Awaiting r := hwaits.awaiting hs
  have hcycle := cycle_key0 ht (hwaits.cfg ▸ hresolve) hkey
  have hreg : ∀ q, (t.withInput last).reg q = s.reg q := State.reg_congr hwaits.v
  refine ⟨t, _, hrun, hcycle, ht, hwaits.v, hwaits.pc, hwaits.i, hwaits.mem, hwaits.fb, hwaits.stack, hwaits.sp,
    hwaits.dt, hwaits.st, ?running, ?stored, ?others, ?pc, ?mem⟩
  case running => exact ⟨by simpa [State.resolved] using ht.1, rfl⟩
  case stored => rw [State.resolved_reg, if_pos rfl]; rfl
  case others => intro q hq; rw [State.resolved_reg, if_neg hq, hreg q]
  case pc => simpa [State.resolved] using hwaits.pc
  case mem => simpa [State.resolved] using hwaits.mem

end Sys2Proof.Machine
end

-- Proofs: calls, returns and the jump with an offset (41_control_flow.md)
section

namespace Sys2Proof.Machine

/-! ## The frame of an instruction that raises nothing -/

theorem Frame.refl (k : Touches) (s : State) : Frame k s s := by
  constructor <;> intros <;> rfl

/-- An instruction that leaves the fault record as it was did nothing outside its frame: a raise that writes the record
already there changes nothing at all. -/
theorem exec_frame_of_fault {i : Instr} {s t : State} (h : exec i s = .next t) (hfault : t.fault = s.fault) :
    Frame (touches i s) s t := by
  obtain hframe | ⟨c, rfl⟩ := exec_frame h
  · exact hframe
  · have hsame : { s with fault := some { code := c, pc := s.pc, word := encode i } } = s :=
      congrArg (fun r => { s with fault := r }) hfault
    rw [hsame]
    exact Frame.refl _ s

/-! ## `2nnn` -/

/-- The state after a call that finds room on the stack (41_control_flow.md R122). -/
def State.afterCall (s : State) (nnn : Addr12) (h : s.sp.val < 16) : State :=
  { s with
    stack := s.stack.set s.sp.val (s.pc + 2) h
    sp := ⟨s.sp.val + 1, by omega⟩
    pc := addrOf nnn }

theorem exec_call_next (nnn : Addr12) {s : State} (h : s.sp.val < 16) :
    exec (.call nnn) s = .next (s.afterCall nnn h) := exec_call_push nnn h

/-- Settles O22: the two cases of the stack. -/
theorem callPushesTheReturnAddress : Obligations.CallPushesTheReturnAddress := by
  unfold Obligations.CallPushesTheReturnAddress
  refine ⟨decodesAs_call, rfl, fun nnn s => ⟨fun h => ?room, fun hfull => ?full⟩⟩
  case room =>
    have hexec := exec_call_next nnn h
    exact ⟨_, hexec, Vector.getElem_set_self _, rfl, addrOf_toNat nnn, exec_frame_of_fault hexec rfl⟩
  case full => exact exec_call_full nnn (by rw [hfull]; decide)

/-! ## `00EE` -/

/-- The state after a return that finds an entry on the stack (41_control_flow.md R120). -/
def State.afterRet (s : State) (h : 0 < s.sp.val) : State :=
  { s with
    sp := ⟨s.sp.val - 1, by omega⟩
    pc := s.stack[s.sp.val - 1]'(by omega) }

theorem exec_ret_next {s : State} (h : 0 < s.sp.val) : exec .ret s = .next (s.afterRet h) := exec_ret_pop h

/-- Settles O23: the two cases of the stack. -/
theorem returnPopsTheReturnAddress : Obligations.ReturnPopsTheReturnAddress := by
  unfold Obligations.ReturnPopsTheReturnAddress
  refine ⟨decode_ret, rfl, fun s => ⟨fun h => ?entry, fun hempty => ?empty⟩⟩
  case entry =>
    have hexec := exec_ret_next h
    exact ⟨_, hexec, rfl, rfl, exec_frame_of_fault hexec rfl⟩
  case empty => exact exec_ret_empty (by rw [hempty]; decide)

/-! ## A call and the return at its target -/

/-- A return right after a call pops the entry that the call pushed. -/
theorem State.afterRet_afterCall (s : State) (nnn : Addr12) (h : s.sp.val < 16) :
    (s.afterCall nnn h).afterTick.afterRet (Nat.succ_pos _) =
      { s.afterTick with pc := s.pc + 2, stack := s.stack.set s.sp.val (s.pc + 2) h } := by
  simp only [State.afterRet, State.afterCall, State.afterTick, Nat.add_sub_cancel, Vector.getElem_set_self]

/-- Settles O27: the call's target is fetched next, and the return there pops what the call pushed. -/
theorem callThenReturnComesBack : Obligations.CallThenReturnComesBack := by
  unfold Obligations.CallThenReturnComesBack
  intro s nnn hfetch h hin hword
  have hcall : step s = .next (s.afterTick.afterCall nnn h) := 
    (step_of_fetches hfetch).trans (exec_call_next (s := s.afterTick) nnn h)
  have hnext : (s.afterTick.afterCall nnn h).Fetches .ret := by
    obtain ⟨hrun, -, -⟩ := hfetch
    refine ⟨hrun, ?_, ?_⟩
    · exact (congrArg (· + 1) (addrOf_toNat nnn)).trans_le hin
    · have hpc : (s.afterTick.afterCall nnn h).pc.toNat = nnn.toNat := addrOf_toNat nnn
      rw [State.wordAtPc, hpc]
      exact (congrArg decode hword).trans decode_ret
  have hret : step (s.afterTick.afterCall nnn h) = .next _ :=
    (step_of_fetches hnext).trans (exec_ret_next (Nat.succ_pos _))
  exact ⟨_, _, hcall, hret.trans (congrArg _ (State.afterRet_afterCall s.afterTick nnn h)), rfl, rfl⟩

/-! ## `Bnnn` -/

theorem exec_jpV0 (nnn : Addr12) (s : State) :
    exec (.jpV0 nnn) s = s.finish (.jump (addrOf nnn + wordOf (s.reg 0))) := rfl

/-- Settles O24: the directive's target is a sum that does not wrap. -/
theorem jumpV0AddsV0 : Obligations.JumpV0AddsV0 := by
  unfold Obligations.JumpV0AddsV0
  refine ⟨decodesAs_jpV0, fun nnn s => ?_⟩
  obtain ⟨t, hexec, hpc, hframe⟩ := completes_of_finish (exec_jpV0 nnn s)
  exact ⟨t, hexec, hpc ▸ addrOf_add_wordOf_toNat nnn (s.reg 0), hframe⟩

end Sys2Proof.Machine
end

-- Proofs: flags, shifts and logic (42_alu.md)
section

namespace Sys2Proof.Machine

/-! ## Flags and results as numbers -/

theorem flagByte_decide (p : Prop) [Decidable p] : flagByte (decide p) = if p then 1 else 0 := by
  by_cases h : p <;> simp [flagByte, h]

theorem flagByte_toNat (f : Bool) : (flagByte f).toNat = f.toNat := by
  cases f <;> rfl

theorem byte_sub_toNat (a b : Byte) : (a - b).toNat = (a.toNat + 256 - b.toNat) % 256 := by
  have := b.isLt
  rw [BitVec.toNat_sub]
  congr 1
  omega

/-! ## Instructions that write a result and then the flag -/

/-- An instruction that only writes a result and then the flag leaves the result for `x` other than 15, the flag, and
everything else as it was (42_alu.md section 3; D10). -/
theorem completes_of_setRegFlag {i : Instr} {s : State} {x : Reg} {b : Byte} {f : Bool}
    (h : exec i s = (s.setRegFlag x b f).finish .next) :
    Completes i s fun t => (x ≠ VF → t.reg x = b) ∧ t.reg VF = flagByte f ∧ t.pc = s.pc + 2 ∧
      Frame { regs := [x, VF] } s t := by
  refine ⟨_, h, fun hx => ?result, State.setRegFlag_reg_VF s x b f, rfl, Frame.of_setRegFlag s x b f _⟩
  exact (State.setRegFlag_reg s x x b f).trans (by rw [if_neg hx, if_pos rfl])

theorem exec_addReg (x y : Reg) (s : State) : exec (.addReg x y) s =
    (s.setRegFlag x (s.reg x + s.reg y) (carryOut (s.reg x) (s.reg y))).finish .next := rfl

theorem exec_subReg (x y : Reg) (s : State) : exec (.subReg x y) s =
    (s.setRegFlag x (s.reg x - s.reg y) (notBorrow (s.reg x) (s.reg y))).finish .next := rfl

theorem exec_subnReg (x y : Reg) (s : State) : exec (.subnReg x y) s =
    (s.setRegFlag x (s.reg y - s.reg x) (notBorrow (s.reg y) (s.reg x))).finish .next := rfl

theorem exec_shr (x y : Reg) (s : State) : exec (.shr x y) s =
    (s.setRegFlag x (s.shiftSource x y >>> 1) (bitZero (s.shiftSource x y))).finish .next := rfl

theorem exec_shl (x y : Reg) (s : State) : exec (.shl x y) s =
    (s.setRegFlag x (s.shiftSource x y <<< 1) (bitSeven (s.shiftSource x y))).finish .next := rfl

/-- Settles O32: the result is the sum of two bytes and the flag its carry. -/
theorem addSetsTheCarry : Obligations.AddSetsTheCarry := by
  unfold Obligations.AddSetsTheCarry
  refine ⟨decodesAs_addReg, fun x y s => ?_⟩
  obtain ⟨t, hexec, hreg, hflag, hpc, hframe⟩ := completes_of_setRegFlag (exec_addReg x y s)
  exact ⟨t, hexec, fun hx => hreg hx ▸ BitVec.toNat_add _ _, hflag.trans (flagByte_decide _), hpc, hframe⟩

/-- A subtract of `b` from `a` leaves the difference and whether `a` is the greater (42_alu.md R148, R150). -/
theorem completes_of_subtract {i : Instr} {s : State} {x : Reg} {a b : Byte}
    (h : exec i s = (s.setRegFlag x (a - b) (notBorrow a b)).finish .next) :
    Completes i s fun t => (x ≠ VF → (t.reg x).toNat = (a.toNat + 256 - b.toNat) % 256) ∧
      t.reg VF = (if a.toNat > b.toNat then 1 else 0) ∧ t.pc = s.pc + 2 ∧ Frame { regs := [x, VF] } s t := by
  obtain ⟨t, hexec, hreg, hflag, hpc, hframe⟩ := completes_of_setRegFlag h
  exact ⟨t, hexec, fun hx => hreg hx ▸ byte_sub_toNat a b, hflag.trans (flagByte_decide _), hpc, hframe⟩

/-- Settles O33: one subtract, with the operands in either order. -/
theorem subtractsSetNotBorrow : Obligations.SubtractsSetNotBorrow := by
  unfold Obligations.SubtractsSetNotBorrow
  exact ⟨decodesAs_subReg, decodesAs_subnReg, fun x y s =>
    ⟨completes_of_subtract (exec_subReg x y s), completes_of_subtract (exec_subnReg x y s)⟩⟩

/-! ## The balance of result and flag (42_alu.md R154) -/

theorem add_balance (a b : Byte) : (a + b).toNat + 256 * (carryOut a b).toNat = a.toNat + b.toNat := by
  have ha := a.isLt
  have hb := b.isLt
  rw [BitVec.toNat_add, carryOut]
  by_cases h : a.toNat + b.toNat > 255
  · simp only [h, decide_true, Bool.toNat_true]; omega
  · simp only [h, decide_false, Bool.toNat_false]; omega

theorem sub_balance {a b : Byte} (h : a ≠ b) : (a - b).toNat + b.toNat = a.toNat + 256 * (1 - (notBorrow a b).toNat) := by
  have ha := a.isLt
  have hb := b.isLt
  have hne : a.toNat ≠ b.toNat := fun e => h (BitVec.eq_of_toNat_eq e)
  rw [byte_sub_toNat, notBorrow]
  by_cases hgt : a.toNat > b.toNat
  · simp only [hgt, decide_true, Bool.toNat_true]; omega
  · simp only [hgt, decide_false, Bool.toNat_false]; omega

/-- The balance of a subtract, equal operands apart. -/
theorem completes_of_subtract_balance {i : Instr} {s : State} {x : Reg} {a b : Byte} (hx : x ≠ VF)
    (h : exec i s = (s.setRegFlag x (a - b) (notBorrow a b)).finish .next) {p : Prop} [Decidable p] (hp : p ↔ a = b) :
    Completes i s fun t => if p then t.reg x = 0
      else (t.reg x).toNat + b.toNat = a.toNat + 256 * (1 - (t.reg VF).toNat) := by
  obtain ⟨t, hexec, hreg, hflag, -, -⟩ := completes_of_setRegFlag h
  refine ⟨t, hexec, ?_⟩
  dsimp only
  rw [hreg hx, hflag, flagByte_toNat]
  split
  case isTrue h => rw [hp.mp h]; exact BitVec.sub_self b
  case isFalse h => exact sub_balance (mt hp.mpr h)

/-- Settles O36: for `x` other than 15 the result and the flag both stay, and balance as numbers. -/
theorem flagsBalanceTheArithmetic : Obligations.FlagsBalanceTheArithmetic := by
  unfold Obligations.FlagsBalanceTheArithmetic
  refine fun x y s hx => ⟨?add, completes_of_subtract_balance hx (exec_subReg x y s) Iff.rfl,
    completes_of_subtract_balance hx (exec_subnReg x y s) eq_comm⟩
  case add =>
    obtain ⟨t, hexec, hreg, hflag, -, -⟩ := completes_of_setRegFlag (exec_addReg x y s)
    refine ⟨t, hexec, ?_⟩
    dsimp only
    rw [hreg hx, hflag, flagByte_toNat]
    exact add_balance _ _

/-! ## Shifts -/

theorem bitZero_toNat (b : Byte) : (bitZero b).toNat = b.toNat % 2 := by
  rw [bitZero, BitVec.getLsbD, Nat.toNat_testBit, pow_zero, Nat.div_one]

theorem bitSeven_toNat (b : Byte) : (bitSeven b).toNat = b.toNat / 128 := by
  have := b.isLt
  rw [bitSeven, BitVec.getLsbD, Nat.toNat_testBit]
  omega

theorem shiftRight_one_toNat (b : Byte) : (b >>> 1).toNat = b.toNat / 2 := by
  rw [BitVec.toNat_ushiftRight, Nat.shiftRight_eq_div_pow, pow_one]

theorem shiftLeft_one_toNat (b : Byte) : (b <<< 1).toNat = b.toNat * 2 % 256 := by
  rw [BitVec.toNat_shiftLeft, Nat.shiftLeft_eq, pow_one]

/-- Settles O34: the result is the shifted source and the flag the bit at its end. -/
theorem shiftsMoveOneBitIntoVF : Obligations.ShiftsMoveOneBitIntoVF := by
  unfold Obligations.ShiftsMoveOneBitIntoVF
  refine ⟨decodesAs_shr, decodesAs_shl, fun x y s => ⟨?shr, ?shl⟩⟩
  case shr =>
    obtain ⟨t, hexec, hreg, hflag, hpc, hframe⟩ := completes_of_setRegFlag (exec_shr x y s)
    refine ⟨t, hexec, fun hx => hreg hx ▸ shiftRight_one_toNat _, ?_, hpc, hframe⟩
    rw [hflag, flagByte_toNat]
    exact bitZero_toNat _
  case shl =>
    obtain ⟨t, hexec, hreg, hflag, hpc, hframe⟩ := completes_of_setRegFlag (exec_shl x y s)
    refine ⟨t, hexec, fun hx => hreg hx ▸ shiftLeft_one_toNat _, ?_, hpc, hframe⟩
    rw [hflag, flagByte_toNat]
    exact bitSeven_toNat _

/-! ## Logic -/

/-- A logic instruction leaves its result, unless clearing `VF` overwrites it, and clears `VF` last exactly under
LOGIC_CLEARS_VF (42_alu.md R144 to R146; D11). -/
theorem completes_of_setRegLogic {i : Instr} {s : State} {x : Reg} {b : Byte}
    (h : exec i s = (s.setRegLogic x b).finish .next) :
    Completes i s fun t => (x ≠ VF ∨ s.cfg.logicClearsVF = false → t.reg x = b) ∧
      (s.cfg.logicClearsVF = true → t.reg VF = 0) ∧ t.pc = s.pc + 2 ∧
      Frame { regs := if s.cfg.logicClearsVF then [x, VF] else [x] } s t := by
  refine ⟨_, h, fun hkept => ?result, fun hclears => ?cleared, congrArg (· + 2) (s.setRegLogic_pc x b),
    Frame.of_setRegLogic s x b _⟩
  case result =>
    have hnot : ¬ (s.cfg.logicClearsVF = true ∧ x = VF) := by
      rintro ⟨hclears, hx⟩
      exact hkept.elim (absurd hx) (by simp [hclears])
    exact (State.setRegLogic_reg s x x b).trans (by rw [if_neg hnot, if_pos rfl])
  case cleared => exact (State.setRegLogic_reg s x VF b).trans (if_pos ⟨hclears, rfl⟩)

theorem exec_orReg (x y : Reg) (s : State) :
    exec (.orReg x y) s = (s.setRegLogic x (s.reg x ||| s.reg y)).finish .next := rfl

theorem exec_andReg (x y : Reg) (s : State) :
    exec (.andReg x y) s = (s.setRegLogic x (s.reg x &&& s.reg y)).finish .next := rfl

theorem exec_xorReg (x y : Reg) (s : State) :
    exec (.xorReg x y) s = (s.setRegLogic x (s.reg x ^^^ s.reg y)).finish .next := rfl

/-- Each logic instruction writes a byte whose bits combine those of its operands. -/
theorem exec_logic {x y : Reg} {i : Instr} {op : Bool → Bool → Bool} (s : State)
    (h : (i = .orReg x y ∧ op = or) ∨ (i = .andReg x y ∧ op = and) ∨ (i = .xorReg x y ∧ op = Bool.xor)) :
    ∃ b : Byte, exec i s = (s.setRegLogic x b).finish .next ∧
      ∀ n, b.getLsbD n = op ((s.reg x).getLsbD n) ((s.reg y).getLsbD n) := by
  obtain ⟨rfl, rfl⟩ | ⟨rfl, rfl⟩ | ⟨rfl, rfl⟩ := h
  · exact ⟨_, exec_orReg x y s, fun n => BitVec.getLsbD_or⟩
  · exact ⟨_, exec_andReg x y s, fun n => BitVec.getLsbD_and⟩
  · exact ⟨_, exec_xorReg x y s, fun n => BitVec.getLsbD_xor⟩

/-- Settles O31: the three instructions differ in how the bits of the byte they write combine. -/
theorem logicOpsActBitwise : Obligations.LogicOpsActBitwise := by
  unfold Obligations.LogicOpsActBitwise
  refine ⟨decodesAs_orReg, decodesAs_andReg, decodesAs_xorReg, fun x y s i op hi => ?_⟩
  obtain ⟨b, hb, hbits⟩ := exec_logic s hi
  obtain ⟨t, hexec, hreg, hrest⟩ := completes_of_setRegLogic hb
  exact ⟨t, hexec, fun hkept n _ => hreg hkept ▸ hbits n, hrest⟩

/-! ## `Cxkk` -/

theorem exec_rnd (x : Reg) (kk : Byte) (s : State) :
    exec (.rnd x kk) s = (s.setReg x (s.rndByte &&& kk)).finish .next := rfl

/-- Settles O35: the byte of the cycle is the injected one, or the free one without it. -/
theorem randomByteIsMasked : Obligations.RandomByteIsMasked := by
  unfold Obligations.RandomByteIsMasked
  refine ⟨decodesAs_rnd, fun x kk s => ?_⟩
  obtain ⟨t, hexec, hreg, hpc, hframe⟩ := completes_of_setReg (exec_rnd x kk s)
  refine ⟨t, hexec, fun b hb => ?injected, fun hnone => ?free, hpc, hframe⟩
  case injected => rw [hreg, State.rndByte, hb]; rfl
  case free => rw [hreg, State.rndByte, hnone]; rfl

/-! ## `7xkk` and then `7x01` again and again (42_alu.md R153) -/

/-- The state after `7xkk`. -/
def State.addedImm (s : State) (x : Reg) (kk : Byte) : State :=
  { (s.setReg x (s.reg x + kk)) with pc := s.pc + 2 }

theorem exec_addImm_next (x : Reg) (kk : Byte) (s : State) : exec (.addImm x kk) s = .next (s.addedImm x kk) := rfl

theorem State.addedImm_reg_self (s : State) (x : Reg) (kk : Byte) : (s.addedImm x kk).reg x = s.reg x + kk :=
  s.setReg_reg_self x _

theorem State.addedImm_reg_ne (s : State) {x r : Reg} (kk : Byte) (h : r ≠ x) : (s.addedImm x kk).reg r = s.reg r :=
  s.setReg_reg_ne x r _ h

/-- The state after `n` executions of `7x01`. -/
def State.addedOnes (s : State) (x : Reg) : Nat → State
  | 0 => s
  | n + 1 => (s.addedOnes x n).addedImm x 1

theorem State.addedOnes_reg_self (s : State) (x : Reg) (n : Nat) :
    (s.addedOnes x n).reg x = s.reg x + BitVec.ofNat 8 n := by
  induction n with
  | zero => simp [State.addedOnes]
  | succ n ih => rw [State.addedOnes, State.addedImm_reg_self, ih, BitVec.add_assoc, BitVec.ofNat_add]; rfl

theorem State.addedOnes_reg_ne (s : State) {x r : Reg} (h : r ≠ x) (n : Nat) : (s.addedOnes x n).reg r = s.reg r := by
  induction n with
  | zero => rfl
  | succ n ih => rw [State.addedOnes, State.addedImm_reg_ne _ _ h, ih]

/-- A byte and as many ones as it lacks of 256 make 0. -/
theorem add_complement (kk : Byte) : kk + BitVec.ofNat 8 (256 - kk.toNat) = 0 := by
  have := kk.isLt
  apply BitVec.eq_of_toNat_eq
  rw [BitVec.toNat_add, BitVec.toNat_ofNat, Nat.add_mod_mod]
  have hsum : kk.toNat + (256 - kk.toNat) = 256 := by omega
  rw [hsum]
  rfl

/-- Settles O37: the chain of states, by induction on its length, adds `kk` and the ones that complete it to 256. -/
theorem addImmediateWrapsRound : Obligations.AddImmediateWrapsRound := by
  unfold Obligations.AddImmediateWrapsRound
  intro x kk s
  refine ⟨(s.addedImm x kk).addedOnes x, exec_addImm_next x kk s, fun n _ => exec_addImm_next x 1 _, ?back,
    fun n _ r hr => ?others⟩
  case back =>
    rw [State.addedOnes_reg_self, State.addedImm_reg_self, BitVec.add_assoc, add_complement]
    exact BitVec.add_zero _
  case others => rw [State.addedOnes_reg_ne _ hr, State.addedImm_reg_ne _ _ hr]

end Sys2Proof.Machine
end

-- Proofs: adds to I and glyph addresses (43_index_memory.md), construction and the loader (70_reset_and_hazards.md)
section

namespace Sys2Proof.Machine

/-! ## `Fx1E` and `Fx29` -/

theorem exec_addI (x : Reg) (s : State) :
    exec (.addI x) s = State.finish { s with i := s.i + wordOf (s.reg x) } .next := rfl

/-- Settles O39: the one write is the sum of two 16-bit words. -/
theorem addIndexWrapsAtSixteenBits : Obligations.AddIndexWrapsAtSixteenBits := by
  unfold Obligations.AddIndexWrapsAtSixteenBits
  refine ⟨decodesAs_addI, fun x s => ?_⟩
  obtain ⟨t, hexec, hi, hpc, hframe⟩ := completes_of_setI (exec_addI x s)
  exact ⟨t, hexec, by rw [hi, BitVec.toNat_add, wordOf_toNat], hpc, hframe⟩

theorem exec_ldF (x : Reg) (s : State) :
    exec (.ldF x) s = State.finish { s with i := glyphAddr (s.reg x) } .next := rfl

/-- A glyph's address does not wrap: five times a byte is below 2^16. -/
theorem glyphAddr_toNat (b : Byte) : (glyphAddr b).toNat = 5 * b.toNat := by
  have := b.isLt
  rw [glyphAddr, BitVec.toNat_add, BitVec.toNat_mul, wordOf_toNat]
  simp only [fontBase, BitVec.toNat_ofNat]
  omega

/-- What an unlisted address reads as: the font's byte (10_state.md R31). -/
theorem Memory.unlisted_font {a : Nat} (h : a < 80) : font[a]? = some (Memory.unlisted a) := by
  have hlen : a < font.length := h
  exact (List.getElem?_eq_getElem hlen).trans (congrArg some (List.getD_eq_getElem _ _ hlen).symm)

/-- Above the font an unlisted address reads 0. -/
theorem Memory.unlisted_above {a : Nat} (h : 80 ≤ a) : Memory.unlisted a = 0 :=
  List.getD_eq_default _ _ h

/-- Settles O40: the one write is five times the byte, and construction lists nothing, so the font stands at 0x000. -/
theorem glyphAddressIsFiveTimesTheRegister : Obligations.GlyphAddressIsFiveTimesTheRegister := by
  unfold Obligations.GlyphAddressIsFiveTimesTheRegister
  refine ⟨decodesAs_ldF, fun x s => ?address, fun g j hg hj => Memory.unlisted_font (by omega)⟩
  case address =>
    obtain ⟨t, hexec, hi, hpc, hframe⟩ := completes_of_setI (exec_ldF x s)
    exact ⟨t, hexec, hi ▸ glyphAddr_toNat (s.reg x), hpc, hframe⟩

/-! ## Construction and the loader -/

theorem Framebuffer.clear_pixel (py : Fin 32) (px : Fin 64) : Framebuffer.clear.pixel py px = false := by
  simp [Framebuffer.clear, Framebuffer.pixel]

/-- Settles O53: the fields as they are written out, and memory that lists nothing. -/
theorem constructionState : Obligations.ConstructionState := by
  unfold Obligations.ConstructionState
  refine ⟨fun x => ?regs, rfl, rfl, fun n h => ?stack, rfl, rfl, rfl, fun py px => Framebuffer.clear_pixel py px, rfl,
    fun k => ?keys, rfl, rfl, fun a h => Memory.unlisted_font h, fun a h => Memory.unlisted_above h⟩
  case regs => simp [State.reg, State.reset]
  case stack => simp [State.reset]
  case keys => simp [State.reset]

/-- Settles O54: byte `n` of the block is read back where its address exists, and outside the block reads are as before. -/
theorem loaderPlacesTheImage : Obligations.LoaderPlacesTheImage := by
  unfold Obligations.LoaderPlacesTheImage
  refine fun image s hmem => ⟨rfl, fun n hn b hb => ?inside, fun a ha => Memory.read_writeBlock_outside ha⟩
  case inside =>
    obtain ⟨hlen, rfl⟩ := List.getElem?_eq_some_iff.mp hb
    exact Memory.read_writeBlock_inside hmem hlen (by simp only [progBase, memSize]; omega)

/-- Settles O55: the default font writes nothing, for every byte is what an unlisted address reads as; any other is a block
of 80 bytes written from 0x000 on. -/
theorem constructionPlacesTheFont : Obligations.ConstructionPlacesTheFont := by
  unfold Obligations.ConstructionPlacesTheFont
  refine ⟨?default, fun cfg fontBytes hlen => ⟨rfl, ?canonical, fun a ha => ?font, fun a ha => ?above⟩⟩
  case default =>
    have hmem : Memory.writeBlock [] fontBase (font.take 80) = [] := by decide
    rw [State.construct, hmem]
    rfl
  all_goals
    dsimp only [State.MemCanonical, State.construct]
    rw [List.take_of_length_le hlen.le]
  case canonical => exact Memory.writeBlock_wf _ _ rfl
  case font =>
    have hread := Memory.read_writeBlock_inside (m := []) (a := fontBase) rfl (hlen ▸ ha)
      (by simp only [fontBase, memSize]; omega)
    rw [List.getElem?_eq_getElem (hlen ▸ ha), ← hread, Nat.zero_add]
  case above =>
    rw [Memory.read_writeBlock_outside (.inr (.inl (by simp only [fontBase]; omega)))]
    exact Memory.unlisted_above ha

end Sys2Proof.Machine
end

-- Proofs: the display cleared, the keypad and the timers (44_display.md, 45_timers_input.md)
section

namespace Sys2Proof.Machine

/-! ## `00E0` -/

theorem exec_cls (s : State) :
    exec .cls s = State.finish { s with fb := Framebuffer.clear, frameDirty := true } .next := rfl

/-- Settles O45: the framebuffer is replaced by the cleared one. -/
theorem clearScreenClearsEveryPixel : Obligations.ClearScreenClearsEveryPixel := by
  unfold Obligations.ClearScreenClearsEveryPixel
  refine ⟨decode_cls, fun s => ⟨_, exec_cls s, fun py px => Framebuffer.clear_pixel py px, rfl, rfl, ?frame⟩⟩
  case frame => exact exec_frame_of_fault (exec_cls s) rfl

/-! ## `Ex9E` and `ExA1` -/

theorem Directive.target_skipIf (b : Bool) (p : Word) :
    (Directive.skipIf b).target p = if b = true then p + 4 else p + 2 := by
  cases b <;> rfl

theorem Directive.target_skipIf_not (b : Bool) (p : Word) :
    (Directive.skipIf !b).target p = if b = true then p + 2 else p + 4 := by
  cases b <;> rfl

theorem Directive.target_skipIf_cases (b : Bool) (p : Word) :
    (Directive.skipIf b).target p = p + 2 ∨ (Directive.skipIf b).target p = p + 4 := by
  cases b
  · exact .inl rfl
  · exact .inr rfl

/-- Settles O49: the key test answers the snapshot's key, raises, or answers a free value. -/
theorem keySkipsTestTheKey : Obligations.KeySkipsTestTheKey := by
  unfold Obligations.KeySkipsTestTheKey
  refine ⟨decodesAs_skp, decodesAs_sknp, rfl, fun x s =>
    ⟨fun h => ?inRange, fun h hpolicy => ?raises, fun h hpolicy i hi => ?free⟩⟩
  case inRange =>
    have hkey := s.keyPressed_inRange (s.reg x) h
    exact ⟨Directive.target_skipIf _ s.pc ▸ completes_of_finish (exec_skp_some hkey),
      Directive.target_skipIf_not _ s.pc ▸ completes_of_finish (exec_sknp_some hkey)⟩
  case raises =>
    have hkey := s.keyPressed_fault (s.reg x) (Nat.not_lt.mpr h) hpolicy
    exact ⟨exec_skp_none hkey, exec_sknp_none hkey⟩
  case free =>
    obtain ⟨down, hkey⟩ := s.keyPressed_any (s.reg x) hpolicy
    obtain rfl | rfl := hi
    · obtain ⟨t, hexec, hpc, hframe⟩ := completes_of_finish (exec_skp_some hkey)
      exact ⟨t, hexec, hpc ▸ Directive.target_skipIf_cases down s.pc, hframe⟩
    · obtain ⟨t, hexec, hpc, hframe⟩ := completes_of_finish (exec_sknp_some hkey)
      exact ⟨t, hexec, hpc ▸ Directive.target_skipIf_cases (!down) s.pc, hframe⟩

/-! ## `Fx0A` -/

theorem exec_ldVxK (x : Reg) (s : State) :
    exec (.ldVxK x) s = State.finish { s with inputWait := some x } .next := rfl

/-- Settles O52: the latch is the one write. -/
theorem keyWaitSetsTheLatch : Obligations.KeyWaitSetsTheLatch := by
  unfold Obligations.KeyWaitSetsTheLatch
  exact ⟨decodesAs_ldVxK, fun x s => ⟨_, exec_ldVxK x s, rfl, rfl, exec_frame_of_fault (exec_ldVxK x s) rfl⟩⟩

/-! ## `Fx15` and `Fx18` -/

theorem exec_ldDTVx (x : Reg) (s : State) : exec (.ldDTVx x) s = State.finish { s with dt := s.reg x } .next := rfl

theorem exec_ldSTVx (x : Reg) (s : State) : exec (.ldSTVx x) s = State.finish { s with st := s.reg x } .next := rfl

theorem completes_ldDTVx (x : Reg) (s : State) : Completes (.ldDTVx x) s fun t =>
    t.dt = s.reg x ∧ t.pc = s.pc + 2 ∧ Frame { dt := true } s t :=
  ⟨_, exec_ldDTVx x s, rfl, rfl, exec_frame_of_fault (exec_ldDTVx x s) rfl⟩

theorem completes_ldSTVx (x : Reg) (s : State) : Completes (.ldSTVx x) s fun t =>
    t.st = s.reg x ∧ t.pc = s.pc + 2 ∧ Frame { st := true } s t :=
  ⟨_, exec_ldSTVx x s, rfl, rfl, exec_frame_of_fault (exec_ldSTVx x s) rfl⟩

/-- Settles O51: over a whole cycle the instruction runs on the ticked state, and its frame keeps the other timer. -/
theorem timerWritesSetTheTimer : Obligations.TimerWritesSetTheTimer := by
  unfold Obligations.TimerWritesSetTheTimer
  refine ⟨decodesAs_ldDTVx, decodesAs_ldSTVx, fun x s =>
    ⟨completes_ldDTVx x s, completes_ldSTVx x s, fun hfetch => ?delay, fun hfetch => ?sound⟩⟩
  case delay =>
    obtain ⟨t, hexec, hdt, -, hframe⟩ := completes_ldDTVx x s.afterTick
    have hst : t.st = ticked s.st := hframe.st rfl
    exact ⟨t, (step_of_fetches hfetch).trans hexec, hdt, hst ▸ ticked_toNat s.st⟩
  case sound =>
    obtain ⟨t, hexec, hst, -, hframe⟩ := completes_ldSTVx x s.afterTick
    have hdt : t.dt = ticked s.dt := hframe.dt rfl
    exact ⟨t, (step_of_fetches hfetch).trans hexec, hst, hdt ▸ ticked_toNat s.dt⟩

/-! ## The outputs -/

theorem State.tone_iff (s : State) : s.tone = true ↔ 0 < s.st.toNat := by
  rw [State.tone, decide_eq_true_iff, Nat.pos_iff_ne_zero, not_iff_not]
  exact BitVec.toNat_inj.symm

/-- Settles O56: the cycle leaves the register's value in `ST`, which decides the tone. -/
theorem toneFollowsTheSoundTimer : Obligations.ToneFollowsTheSoundTimer := by
  unfold Obligations.ToneFollowsTheSoundTimer
  intro x s hfetch
  obtain ⟨t, hexec, hst, -⟩ := completes_ldSTVx x s.afterTick
  refine ⟨t, (step_of_fetches hfetch).trans hexec, ?tone, rfl, rfl, rfl, Option.isSome_iff_ne_none⟩
  case tone =>
    have hst : t.st = s.reg x := hst
    exact hst ▸ t.tone_iff

end Sys2Proof.Machine
end

-- Proofs: registers stored and loaded (43_index_memory.md, 20_memory.md)
section

namespace Sys2Proof.Machine

/-! ## `Fx55` -/

theorem Frame.with_i {k : Touches} {s t : State} (h : Frame k s t) : Frame { k with i := true } s t :=
  { h with i := fun hkept => by cases hkept }

theorem exec_store (x : Reg) (s : State) : exec (.store x) s =
    (State.advanceI { s with mem := s.mem.writeBlock (s.ea 0) (s.regsUpTo x) } x).finish .next := rfl

/-- Settles O42: byte `k` of the block is `V[k]`, and the frame is the instruction's own. -/
theorem registersAreStored : Obligations.RegistersAreStored := by
  unfold Obligations.RegistersAreStored
  refine ⟨decodesAs_store, fun x s hmem => ⟨_, exec_store x s, fun k hk hea => ?read, State.advanceI_i _ x,
    congrArg (· + 2) (State.advanceI_pc _ x), ?frame⟩⟩
  case read =>
    have hlen : k.val < (s.regsUpTo x).length := by rw [State.regsUpTo_length]; exact Nat.lt_succ_of_le hk
    calc Memory.read (State.mem (State.advanceI _ x)) (s.ea k.val)
      _ = (s.mem.writeBlock (s.ea 0) (s.regsUpTo x)).read (s.ea k.val) := by rw [State.advanceI_mem]
      _ = (s.regsUpTo x)[k.val] := State.read_writeBlock_ea hmem hlen hea
      _ = s.reg k := s.regsUpTo_getElem x k hlen
  case frame => exact (exec_frame_of_fault (exec_store x s) (State.advanceI_fault _ x)).with_i

/-- Settles O44: the next instruction's address is `I`, where the first two bytes stored are `V0` and `V1`. -/
theorem storedBytesAreFetchedNext : Obligations.StoredBytesAreFetchedNext := by
  unfold Obligations.StoredBytesAreFetchedNext
  intro x s t hmem hx hi hea hexec
  obtain ⟨-, hstored⟩ := registersAreStored
  obtain ⟨t', hexec', hread, -, hpc, -⟩ := hstored x s hmem
  obtain rfl : t' = t := Host.Outcome.next.inj (hexec'.symm.trans hexec)
  have hnext : t'.pc.toNat = s.ea 0 := congrArg BitVec.toNat (hpc.trans hi.symm)
  have hnext1 : t'.pc.toNat + 1 = s.ea 1 := congrArg (· + 1) hnext
  refine ⟨hnext1.trans_le hea, ?word⟩
  case word =>
    have hV0 : t'.mem.read (s.ea 0) = s.reg 0 := hread 0 (Nat.zero_le _) (Nat.le_of_succ_le hea)
    have hV1 : t'.mem.read (s.ea 1) = s.reg 1 := hread 1 hx hea
    rw [State.wordAtPc, hnext1, hnext, hV0, hV1]
    rfl

/-! ## `Fx65` -/

/-- A block that is in range, or is read under OOB_READ_POLICY = any, is read: the bytes that exist are memory's. -/
theorem State.memReadBlock_some (s : State) {a n : Nat} (h : a + n < memSize ∨ s.cfg.oobRead = .any) :
    ∃ bs, s.memReadBlock a (n + 1) = some bs ∧ bs.length = n + 1 ∧
      ∀ k < n + 1, a + k < memSize → bs[k]? = some (s.mem.read (a + k)) := by
  obtain hin | hany := h
  · refine ⟨_, s.memReadBlock_inRange a (n + 1) (.inr hin), by simp, fun k hk _ => ?_⟩
    simp [List.getElem?_range hk]
  · exact s.memReadBlock_any a (n + 1) hany

/-- Settles O43: the block read gives each register its byte, or raises. -/
theorem registersAreLoaded : Obligations.RegistersAreLoaded := by
  unfold Obligations.RegistersAreLoaded
  refine ⟨decodesAs_load, rfl, fun x s => ⟨fun h => ?loads, fun h hpolicy => ?raises⟩⟩
  case loads =>
    obtain ⟨bs, hread, hlen, hbytes⟩ := s.memReadBlock_some (a := s.ea 0) (n := x.val) (h.imp_left Nat.lt_succ_of_le)
    have hexec := exec_load_some hread
    refine ⟨_, hexec, fun k hk hea => ?regs, ?i, ?pc, ?frame⟩
    case regs =>
      have hk' : k.val < bs.length := by rw [hlen]; exact Nat.lt_succ_of_le hk
      have hreg : ((s.setRegsFrom 0 bs).advanceI x).reg k = bs[k.val] := by
        rw [State.advanceI_reg, State.setRegsFrom_reg, dif_pos ⟨Nat.zero_le _, hk'⟩]
        rfl
      have hbyte := hbytes k.val (hlen ▸ hk') (Nat.lt_succ_of_le hea)
      rw [List.getElem?_eq_getElem hk'] at hbyte
      exact hreg.trans (Option.some.inj hbyte)
    case i => exact (State.advanceI_i _ x).trans (by rw [State.setRegsFrom_cfg, State.setRegsFrom_i])
    case pc => exact congrArg (· + 2) ((State.advanceI_pc _ x).trans (State.setRegsFrom_pc s 0 bs))
    case frame =>
      exact (exec_frame_of_fault hexec ((State.advanceI_fault _ x).trans (State.setRegsFrom_fault s 0 bs))).with_i
  case raises => exact exec_load_none (s.memReadBlock_fault _ _ (Nat.succ_pos _) h hpolicy)

end Sys2Proof.Machine
end

-- Proofs: drawing a sprite (44_display.md)
section

namespace Sys2Proof.Machine

/-! ## A draw of rows that could be read -/

/-- From `s` to `t` the sprite `rows` was drawn at `V[x]`, `V[y]` (44_display.md R191, R192). The flag is said of any
proposition that tells a collision, however it is decided. -/
structure Drew (x y : Reg) (rows : List Byte) (s t : State) : Prop where
  pixel : ∀ py px, t.fb.pixel py px = (s.fb.pixel py px ^^ spriteBit rows (s.reg x) (s.reg y) py px)
  flag : ∀ {p : Prop} [Decidable p], (p ↔ ∃ py px, s.fb.pixel py px = true ∧ t.fb.pixel py px = false) →
    t.reg VF = if p then 1 else 0
  frameDirty : t.frameDirty = true
  pc : t.pc = s.pc + 2
  frame : Frame { regs := [VF], display := true } s t

theorem flagByte_eq_ite {f : Bool} {p : Prop} [Decidable p] (h : p ↔ f = true) : flagByte f = if p then 1 else 0 := by
  cases f <;> simp [h, flagByte]

/-- A draw of at most fifteen rows is the sprite drawn; a collision is a pixel that was 1 under a 1 bit. -/
theorem completes_drw {x y : Reg} {n : Nibble} {s : State} {rows : List Byte}
    (hread : s.memReadBlock (s.ea 0) n.toNat = some rows) (hlen : rows.length = n.toNat) :
    Completes (.drw x y n) s (Drew x y rows s) := by
  have hn := n.isLt
  obtain ⟨hpixel, hcollision⟩ := Blit.drawRows_spec rows (s.fb, false) (s.reg x) (s.reg y) 0 (by omega)
  simp only [bitAt_eq] at hpixel hcollision
  refine ⟨_, exec_drw_some hread, hpixel, fun hp => ?flag, rfl, rfl, exec_frame_of_fault (exec_drw_some hread) rfl⟩
  case flag =>
    refine (State.setReg_reg_self s VF _).trans (flagByte_eq_ite (hp.trans ?_))
    rw [hcollision]
    simp only [Bool.false_eq_true, false_or]
    refine exists₂_congr fun py px => ?_
    have hpy := hpixel py px
    constructor
    · rintro ⟨hset, hgone⟩
      have hgone' := hpy.symm.trans hgone
      rw [hset] at hgone'
      exact ⟨by simpa using hgone', hset⟩
    · rintro ⟨hbit, hset⟩
      exact ⟨hset, hpy.trans (by rw [hset, hbit]; rfl)⟩

/-- The row bytes of a sprite that exists. -/
def State.spriteRows (s : State) (n : Nat) : List Byte := (List.range n).map fun r => s.mem.read (s.ea r)

theorem State.memReadBlock_spriteRows {s : State} {n : Nat} (h : n = 0 ∨ s.ea (n - 1) ≤ 0xFFF) :
    s.memReadBlock (s.ea 0) n = some (s.spriteRows n) :=
  s.memReadBlock_inRange (s.ea 0) n (h.imp_right Nat.lt_succ_of_le)

/-- A draw whose rows exist draws the bytes that memory holds there. -/
theorem completes_drw_inRange {x y : Reg} {n : Nibble} {s : State} (h : n.toNat = 0 ∨ s.ea (n.toNat - 1) ≤ 0xFFF) :
    Completes (.drw x y n) s (Drew x y (s.spriteRows n.toNat) s) :=
  completes_drw (State.memReadBlock_spriteRows h) (by simp [State.spriteRows])

/-- Settles O46: the draw of the bytes at `I`. -/
theorem drawXorsTheSprite : Obligations.DrawXorsTheSprite := by
  unfold Obligations.DrawXorsTheSprite
  refine ⟨decodesAs_drw, fun x y n s h => ?_⟩
  obtain ⟨t, hexec, hdrew⟩ := completes_drw_inRange (x := x) (y := y) h
  exact ⟨t, hexec, hdrew.pixel, hdrew.flag Iff.rfl, hdrew.frameDirty, hdrew.pc, hdrew.frame⟩

/-- Settles O47: the read of the rows raises, or answers a row for each address. -/
theorem drawBeyondMemory : Obligations.DrawBeyondMemory := by
  unfold Obligations.DrawBeyondMemory
  refine fun x y n s hn hlast => ⟨fun hpolicy => ?raises, fun hpolicy => ?draws⟩
  case raises => exact exec_drw_none (s.memReadBlock_fault _ _ hn hlast hpolicy)
  case draws =>
    obtain ⟨rows, hread, hlen, hbytes⟩ := s.memReadBlock_any (s.ea 0) n.toNat hpolicy
    obtain ⟨t, hexec, hdrew⟩ := completes_drw (x := x) (y := y) hread hlen
    exact ⟨rows, hlen, fun r hr hea => hbytes r hr (Nat.lt_succ_of_le hea),
      t, hexec, hdrew.pixel, hdrew.flag Iff.rfl, hdrew.frameDirty, hdrew.pc, hdrew.frame⟩

/-! ## The same sprite drawn twice -/

theorem Framebuffer.ext_pixel {fb fb' : Framebuffer} (h : ∀ py px, fb.pixel py px = fb'.pixel py px) : fb = fb' :=
  Vector.ext fun r hr => Vector.ext fun c hc => h ⟨r, hr⟩ ⟨c, hc⟩

/-- The XOR of a sprite undoes itself, so the framebuffer is restored. -/
theorem Drew.twice {x y : Reg} {rows : List Byte} {s t t' u : State} (h : Drew x y rows s t) (h' : Drew x y rows t' u)
    (hfb : t'.fb = t.fb) (hx : t'.reg x = s.reg x) (hy : t'.reg y = s.reg y) : u.fb = s.fb := by
  refine Framebuffer.ext_pixel fun py px => ?_
  rw [h'.pixel, hfb, hx, hy, h.pixel, Bool.xor_assoc, Bool.xor_self, Bool.xor_false]

/-- Settles O48: both draws read the same rows; the second collides where the first set a pixel. -/
theorem drawingTwiceRestoresTheScreen : Obligations.DrawingTwiceRestoresTheScreen := by
  unfold Obligations.DrawingTwiceRestoresTheScreen
  intro x y n s t t' u _ _ hin hexec hfb hi hx hy hbytes hexec'
  have hea : ∀ r, t'.ea r = s.ea r := fun r => by rw [State.ea, hi, State.ea]
  have hrows : t'.spriteRows n.toNat = s.spriteRows n.toNat :=
    List.map_congr_left fun r hr => by rw [hea, hbytes r (List.mem_range.mp hr)]
  obtain ⟨t₁, hexec₁, hdrew⟩ := completes_drw_inRange (x := x) (y := y) hin
  obtain ⟨u₁, hexec₂, hdrew'⟩ := completes_drw_inRange (x := x) (y := y) (s := t') (by rwa [hea])
  obtain rfl : t₁ = t := Host.Outcome.next.inj (hexec₁.symm.trans hexec)
  obtain rfl : u₁ = u := Host.Outcome.next.inj (hexec₂.symm.trans hexec')
  rw [hrows] at hdrew'
  have hscreen := hdrew.twice hdrew' hfb hx hy
  refine ⟨hscreen, hdrew'.flag ?_⟩
  rw [hscreen, hfb]
  exact exists₂_congr fun py px => and_comm

end Sys2Proof.Machine
end
